-- ==== Sys2Proof/Word.lean ====
section
/-! DEFINITION. The words of the machine: the byte and the 9-bit address sum. -/

namespace Sys2Proof

/-- A memory cell, a register, an operand byte, an address: 8 unsigned bits (R6, R11, R25, R30). -/
abbrev Byte := BitVec 8

/-- The 4-bit opcode identifier of an instruction byte (R45). -/
abbrev Nibble := BitVec 4

/-- A `pc`-relative address sum, wide enough to be seen leaving 0..255 (R36, R69, R72). -/
abbrev Addr9 := BitVec 9

/-- `zext_9(v)` of R7. -/
def zext9 (v : Byte) : Addr9 := v.setWidth 9

/-- `t[7:0]` of R69 and R72. -/
def low8 (t : Addr9) : Byte := t.setWidth 8

end Sys2Proof
end

