-- ==== Sys2Proof/Config.lean ====
section
/-! DEFINITION. The parameters of the hardware (R5): what an implementation fixes, apart from the numbers that the
decoder's own tables hold. -/

namespace Sys2Proof

/-- `OPCODE_ID` (R5, R52): the 4-bit identifier of each of the thirteen instructions. The spec leaves it open
(D1); every definition that reads an identifier takes this map as an argument. -/
structure OpcodeIds where
  add : Nibble
  mul : Nibble
  cmp : Nibble
  halt : Nibble
  ldi : Nibble
  prn : Nibble
  push : Nibble
  pop : Nibble
  call : Nibble
  ret : Nibble
  jmp : Nibble
  jeq : Nibble
  jne : Nibble
  deriving DecidableEq, Repr

/-- The one constraint R52 puts on `OPCODE_ID`: the identifiers of the ALU group differ from each other, those of
table A differ from each other, those of table B differ from each other. -/
abbrev OpcodeIds.Distinct (ids : OpcodeIds) : Prop :=
  [ids.add, ids.mul, ids.cmp].Nodup ∧
  [ids.halt, ids.ldi, ids.prn, ids.push, ids.pop].Nodup ∧
  [ids.call, ids.ret, ids.jmp, ids.jeq, ids.jne].Nodup

/-- `MEM_SIZE` (R5): 256 cells. -/
def Config.memSize : Nat := 256

/-- `SP_RESET` (R5, R14): the reset value of register 7. -/
def Config.spReset : Byte := 0xF4

/-- `REG_RESET` (R5, R14): the reset value of registers 0 to 6. -/
def Config.regReset : Byte := 0

/-- `PC_RESET` (R5, R18). DEDUCED (log 8, unsafe where the hardware differs): the spec's decision D7. -/
def Config.pcReset : Byte := 0

/-- `LOAD_BASE` (R5, R158): the address of the first image byte. -/
def Config.loadBase : Nat := 0

/-- What a cell that the memory list does not name reads as.
DESIGN CHOICE (log 2, unsafe if a claim rests on it): the spec leaves the cells above the image open (R25, D9) and
suggests 0 to a model that wants one value. -/
def Config.unlistedByte : Byte := 0

end Sys2Proof
end

