-- ==== Sys2Proof/Syntax.lean ====
section
/-! DEFINITION. The thirteen instructions, as the opcode table lists them, and the names the decoder uses. -/

namespace Sys2Proof

/-- One instruction with its operand bytes. An operand is a whole byte (R49); a register operand above 7 is a value
the encoding admits (R58) and the machine meets when it uses it (R50), so the syntax admits it too. -/
inductive Instr where
  /-- `ADD Ra,Rb` (R81). -/
  | add (a b : Byte)
  /-- `MUL Ra,Rb` (R82). -/
  | mul (a b : Byte)
  /-- `CMP Ra,Rb` (R83). -/
  | cmp (a b : Byte)
  /-- `HALT` (R90). -/
  | halt
  /-- `LDI Ra,imm` (R91). -/
  | ldi (a imm : Byte)
  /-- `PRN Ra` (R92). -/
  | prn (a : Byte)
  /-- `PUSH Ra` (R99). -/
  | push (a : Byte)
  /-- `POP Ra` (R100). -/
  | pop (a : Byte)
  /-- `CALL Ra` (R107). -/
  | call (a : Byte)
  /-- `RET` (R108). -/
  | ret
  /-- `JMP Ra` (R109). -/
  | jmp (a : Byte)
  /-- `JEQ Ra` (R113). -/
  | jeq (a : Byte)
  /-- `JNE Ra` (R114). -/
  | jne (a : Byte)
  deriving DecidableEq, Repr

/-- The one-of-13 select of the dispatch logic (R125): an instruction without its operands. -/
inductive Op where
  | add | mul | cmp
  | halt | ldi | prn | push | pop
  | call | ret | jmp | jeq | jne
  deriving DecidableEq, Repr

/-- The three closed groups of R73. -/
inductive Group where
  | alu | tableA | tableB
  deriving DecidableEq, Repr

/-- The decoder's 4-tuple (R45, R46). -/
structure Fields where
  /-- Bits 7:6, the operand count; 3 is a value of the field and never legal. -/
  n : BitVec 2
  /-- Bit 5, the ALU-operation flag. -/
  alu : Bool
  /-- Bit 4, the sets-PC flag. -/
  spc : Bool
  /-- Bits 3:0, the opcode identifier. -/
  opc : Nibble
  deriving DecidableEq, Repr

/-- Why a first byte is no instruction: the three faults of dispatch and arity, each with the byte `ir` (R135). -/
inductive DispatchFault where
  /-- `alu = 1` and `opc` is no ALU identifier (R136). -/
  | unsupportedAluOp (ir : Byte)
  /-- `alu = 0` and `opc` has no handler in the table `spc` selects (R137). -/
  | unknownOpcode (ir : Byte)
  /-- An operation was found and `n` is not its arity (R138). -/
  | illegalArity (ir : Byte)
  deriving DecidableEq, Repr

/-- Why a list of bytes does not decode: a dispatch fault, or the list ends before operand byte `k`.
DESIGN CHOICE: the second name (log 9, safe). -/
inductive DecodeError where
  | dispatch (f : DispatchFault)
  | truncated (k : Nat)
  deriving DecidableEq, Repr

/-- The index of a general register, 0 to 7 (R11). -/
abbrev RegIndex := Fin 8

/-- `SP_INDEX` (R5, R12): register 7 is the stack pointer. -/
def spIndex : RegIndex := 7

/-- The operand byte that names a register (R50). -/
def RegIndex.byte (r : RegIndex) : Byte := BitVec.ofNat 8 r.val

end Sys2Proof
end

