-- ==== Sys2Proof/Machine/State.lean ====
section
/-! DEFINITION. The state of the machine: the seven items of R10 and nothing else; the reasons a step can stop. -/

namespace Sys2Proof.Machine

/-- Memory as data: the cells that differ from what an unlisted cell reads as, addresses strictly rising
(`Memory.wf`). -/
abbrev Memory := List Host.Cell

/-- The flags `FL` (R19), one Bool per bit; `State.fl.pack` gives the packed form. -/
structure Flags where
  /-- Equal. -/
  e : Bool
  /-- Greater. -/
  g : Bool
  /-- Less. -/
  l : Bool
  deriving DecidableEq, Repr

/-- `RUN` (R23). -/
inductive RunState where
  | running | halted
  deriving DecidableEq, Repr

/-- `CAUSE` (R24). -/
inductive Cause where
  | none | unsupportedAluOp | unknownOpcode | illegalArity | memRangeFault | regRangeFault
  deriving DecidableEq, Repr

/-- The five faults of R135, each with the information R135 says a model's fault value carries.
The checks of a step raise them; the spec describes their entry (R141), so a step TAKES a fault as a next state
(`takeFault`) and no step of this machine answers `Outcome.fault`. DEDUCED (log 4, safe). -/
inductive Fault where
  /-- Raised by dispatch (R136) with the byte. Safe: the entry is the spec's own. -/
  | unsupportedAluOp (ir : Byte)
  /-- Raised by dispatch (R137) with the byte. Safe: the entry is the spec's own. -/
  | unknownOpcode (ir : Byte)
  /-- Raised by the arity check (R138) with the byte. Safe: the entry is the spec's own. -/
  | illegalArity (ir : Byte)
  /-- Raised by an operand fetch, an advance or the return address of `CALL` (R139) with the 9-bit address.
  Safe: the entry is the spec's own. -/
  | memRangeFault (addr : Addr9)
  /-- Raised where an instruction reads or writes the register an operand byte names (R140), with the byte.
  Safe: the entry is the spec's own. -/
  | regRangeFault (operand : Byte)
  deriving DecidableEq, Repr

/-- Why a step has no next state. -/
inductive Refusal where
  /-- Raised by no instruction of this model: every instruction has its meaning. It is the name an instruction
  without a meaning would be rejected by. Safe: nothing is claimed of such a step. -/
  | notModelled (mnemonic : String)
  /-- Raised by `step` when `RUN = Halted`: there is no step, and it is neither a fault nor a stutter (R76).
  DEDUCED (log 5). Safe: the machine has no behaviour there to misstate. -/
  | halted
  deriving DecidableEq, Repr

/-- The whole state (R10). -/
structure State where
  /-- `MEM[0..255]` (R25). -/
  mem : Memory
  /-- `x[0..7]` (R11). -/
  x : Vector Byte 8
  /-- The program counter (R15). -/
  pc : Byte
  /-- The flags (R19). -/
  fl : Flags
  /-- The run state (R23). -/
  run : RunState
  /-- Why the machine halted (R24). -/
  cause : Cause
  /-- The output trace, oldest first (R22). -/
  out : List Byte
  deriving DecidableEq, Repr

/-- The machine right after reset (R27, R155), with no image loaded: no cell is listed.
DESIGN CHOICE: what such a cell reads as (log 2, unsafe) and that a program is loaded from outside (log 3, safe). -/
def State.reset : State where
  mem := []
  x := #v[Config.regReset, Config.regReset, Config.regReset, Config.regReset, Config.regReset, Config.regReset,
    Config.regReset, Config.spReset]
  pc := Config.pcReset
  fl := { e := false, g := false, l := false }
  run := .running
  cause := .none
  out := []

end Sys2Proof.Machine
end

