-- ==== Sys2Proof/Machine/Ops.lean ====
section
/-! DEFINITION. The named operations over memory, registers and control state; taking a fault, and the one way out
of the halted state. -/

namespace Sys2Proof.Machine

/-- The cell at address `a`; a cell that is not listed reads as `Config.unlistedByte`. -/
def Memory.get (a : Nat) : Memory → Byte
  | [] => Config.unlistedByte
  | (k, v) :: m => if k = a then v else Memory.get a m

/-- `v` in the cell at address `a`, in canonical form: rising addresses, and no entry for the unlisted byte. -/
def Memory.put (a : Nat) (v : Byte) : Memory → Memory
  | [] => if v = Config.unlistedByte then [] else [(a, v)]
  | (k, w) :: m =>
    if a < k then (if v = Config.unlistedByte then (k, w) :: m else (a, v) :: (k, w) :: m)
    else if a = k then (if v = Config.unlistedByte then m else (a, v) :: m)
    else (k, w) :: Memory.put a v m

/-- The canonical form: addresses strictly rising, all of them inside the 256 cells, no entry equal to what an
unlisted address reads as. -/
abbrev Memory.wf (m : Memory) : Prop :=
  m.Pairwise (fun c d => c.1 < d.1) ∧ ∀ c ∈ m, c.1 < Config.memSize ∧ c.2 ≠ Config.unlistedByte

/-- `MemRead(addr, 1)` (R7): no address has a side effect, every address 0 to 255 is legal (R33, R34). -/
def State.read (s : State) (addr : Byte) : Byte := Memory.get addr.toNat s.mem

/-- `MemWrite(addr, 1, v)` (R7). -/
def State.write (s : State) (addr v : Byte) : State := { s with mem := Memory.put addr.toNat v s.mem }

/-- `x[r]` (R7, R11). -/
def State.reg (s : State) (r : RegIndex) : Byte := s.x[r.val]

/-- `x[r] <- v` (R7). No register is hard-wired (R11). -/
def State.setReg (s : State) (r : RegIndex) (v : Byte) : State := { s with x := s.x.set r.val v }

/-- `pc <- target` (R7). -/
def State.setPc (s : State) (target : Byte) : State := { s with pc := target }

/-- `FL <- (e, g, l)` (R7). -/
def State.setFlags (s : State) (f : Flags) : State := { s with fl := f }

/-- `Out(v)` (R7, R22): append to the output trace. -/
def State.emit (s : State) (v : Byte) : State := { s with out := s.out ++ [v] }

/-- `RUN <- Halted`, `CAUSE` kept (R90). -/
def State.halt (s : State) : State := { s with run := .halted }

/-- The stack pointer (R12). -/
def State.sp (s : State) : Byte := s.reg spIndex

/-- A push (R98, R101): `x[7]` is decremented modulo 256, then the cell it names is written. -/
def State.decSp (s : State) : State := s.setReg spIndex (s.sp - 1)

/-- The second half of a pop (R98, R101): `x[7]` is incremented modulo 256, after the read. -/
def State.incSp (s : State) : State := s.setReg spIndex (s.sp + 1)

/-- The `CAUSE` of a fault (R24, R135). -/
def Fault.cause : Fault → Cause
  | .unsupportedAluOp _ => .unsupportedAluOp
  | .unknownOpcode _ => .unknownOpcode
  | .illegalArity _ => .illegalArity
  | .memRangeFault _ => .memRangeFault
  | .regRangeFault _ => .regRangeFault

/-- A fault of dispatch or of the arity check, raised by the machine (R67, R68). -/
def Fault.ofDispatch : DispatchFault → Fault
  | .unsupportedAluOp ir => .unsupportedAluOp ir
  | .unknownOpcode ir => .unknownOpcode ir
  | .illegalArity ir => .illegalArity ir

/-- The code of a cause (R24). -/
def Cause.code : Cause → BitVec 3
  | .none => 0
  | .unsupportedAluOp => 1
  | .unknownOpcode => 2
  | .illegalArity => 3
  | .memRangeFault => 4
  | .regRangeFault => 5

/-- Taking a fault (R141): `RUN <- Halted`, `CAUSE <- code`, nothing else. -/
def takeFault (f : Fault) (s : State) : State := { s with run := .halted, cause := f.cause }

/-- There is no return from a fault (R143). Only reset leaves the halted state: it gives every item its reset value
and does not write memory (R155). It is an act of the host, not a step: DEDUCED (log 16, safe
under R160). That `FL` is clear after it is the spec's decision D8 (log 8). -/
def State.applyReset (s : State) : State := { State.reset with mem := s.mem }

/-- The end of an instruction (R75, R78): where every check passed, the state its effects give; where a check
raised, the fault is taken in the state before the instruction. -/
def conclude (s : State) (r : Except Fault State) : Host.Outcome State Fault Refusal :=
  match r with
  | .ok t => .next t
  | .error f => .next (takeFault f s)

end Sys2Proof.Machine
end

