-- ==== Sys2Proof/Machine/Flags.lean ====
section
/-! DEFINITION. The one flag computation of the machine, the branch evaluator's test, and the packed form of `FL`. -/

namespace Sys2Proof.Machine

/-- The flags `CMP` writes (R83): cleared, then exactly one set, from the unsigned order of the two values. -/
def compareFlags (u v : Byte) : Flags :=
  if u = v then { e := true, g := false, l := false }
  else if v.toNat < u.toNat then { e := false, g := true, l := false }
  else { e := false, g := false, l := true }

/-- The packed form `FL[2] = L`, `FL[1] = G`, `FL[0] = E` (R19). PRESUMED (log 15, safe): no program sees it. -/
def Flags.pack (f : Flags) : BitVec 3 := BitVec.ofBool f.l ++ BitVec.ofBool f.g ++ BitVec.ofBool f.e

/-- Exactly one of the three bits is set (R20, R86). -/
abbrev Flags.OneSet (f : Flags) : Prop :=
  (f.e = true ∧ f.g = false ∧ f.l = false) ∨ (f.e = false ∧ f.g = true ∧ f.l = false) ∨
    (f.e = false ∧ f.g = false ∧ f.l = true)

/-- No bit is set, the state before the first `CMP` (R21, R86). -/
abbrev Flags.Clear (f : Flags) : Prop := f.e = false ∧ f.g = false ∧ f.l = false

/-- `Taken(JEQ) = FL.E` (R110). -/
def takenJeq (f : Flags) : Bool := f.e

/-- `Taken(JNE) = not FL.E` (R110). -/
def takenJne (f : Flags) : Bool := !f.e

end Sys2Proof.Machine
end

