-- ==== Sys2Proof/WellFormed.lean ====
section
/-! DEFINITION. Which instructions are well formed: every register operand names a register. -/

namespace Sys2Proof

/-- A legal register operand: 0 to 7 (R50). -/
def regOperandOk (v : Byte) : Bool := decide (v.toNat ≤ 7)

/-- The instruction keeps its register operands in 0 to 7, which is what software must do (R50, R163). An immediate
may be any byte (R51, R58). The decoder yields ill-formed instructions too; their meaning takes `RegRangeFault`
where the register is used. DESIGN CHOICE (log 10, safe). -/
def Instr.wellFormed : Instr → Bool
  | .add a b => regOperandOk a && regOperandOk b
  | .mul a b => regOperandOk a && regOperandOk b
  | .cmp a b => regOperandOk a && regOperandOk b
  | .halt => true
  | .ldi a _ => regOperandOk a
  | .prn a => regOperandOk a
  | .push a => regOperandOk a
  | .pop a => regOperandOk a
  | .call a => regOperandOk a
  | .ret => true
  | .jmp a => regOperandOk a
  | .jeq a => regOperandOk a
  | .jne a => regOperandOk a

end Sys2Proof
end

