-- ==== Sys2Proof/Decode.lean ====
section
/-! DEFINITION. The decoder, dispatch and arity check on bytes, and the encoder, both from the tables of
spec/30_encoding.md and spec/40_execution_loop.md. -/

namespace Sys2Proof

/-- The default `OPCODE_ID` (R52). PRESUMED (log 1, unsafe): the spec takes the numbers from general knowledge
(D1, G1) and leaves the map open. -/
def defaultIds : OpcodeIds where
  add := 0
  mul := 2
  cmp := 7
  halt := 1
  ldi := 2
  prn := 7
  push := 5
  pop := 6
  call := 0
  ret := 1
  jmp := 4
  jeq := 5
  jne := 6

/-- The identifier the map gives an operation. -/
def OpcodeIds.of (ids : OpcodeIds) : Op → Nibble
  | .add => ids.add
  | .mul => ids.mul
  | .cmp => ids.cmp
  | .halt => ids.halt
  | .ldi => ids.ldi
  | .prn => ids.prn
  | .push => ids.push
  | .pop => ids.pop
  | .call => ids.call
  | .ret => ids.ret
  | .jmp => ids.jmp
  | .jeq => ids.jeq
  | .jne => ids.jne

/-- The group of an operation (R52, R73). -/
def Op.group : Op → Group
  | .add => .alu
  | .mul => .alu
  | .cmp => .alu
  | .halt => .tableA
  | .ldi => .tableA
  | .prn => .tableA
  | .push => .tableA
  | .pop => .tableA
  | .call => .tableB
  | .ret => .tableB
  | .jmp => .tableB
  | .jeq => .tableB
  | .jne => .tableB

/-- The number of operand bytes an operation takes (R68). -/
def Op.arity : Op → Nat
  | .add => 2
  | .mul => 2
  | .cmp => 2
  | .halt => 0
  | .ldi => 2
  | .prn => 1
  | .push => 1
  | .pop => 1
  | .call => 1
  | .ret => 0
  | .jmp => 1
  | .jeq => 1
  | .jne => 1

/-- `Decode(ir)` of R46: the instruction byte split into its four fields (R45). It never fails. -/
def splitByte (ir : Byte) : Fields where
  n := ir.extractLsb' 6 2
  alu := ir.getLsbD 5
  spc := ir.getLsbD 4
  opc := ir.extractLsb' 0 4

/-- The byte with the given fields, laid out as R45 says. -/
def joinByte (f : Fields) : Byte :=
  (f.n.setWidth 8 <<< 6) ||| ((BitVec.ofBool f.alu).setWidth 8 <<< 5) |||
    ((BitVec.ofBool f.spc).setWidth 8 <<< 4) ||| f.opc.setWidth 8

/-- The ALU operation with this identifier (R67). -/
def aluOp? (ids : OpcodeIds) (opc : Nibble) : Option Op :=
  if opc = ids.add then some .add
  else if opc = ids.mul then some .mul
  else if opc = ids.cmp then some .cmp
  else none

/-- The table A handler with this identifier (R67, R73). -/
def tableA? (ids : OpcodeIds) (opc : Nibble) : Option Op :=
  if opc = ids.halt then some .halt
  else if opc = ids.ldi then some .ldi
  else if opc = ids.prn then some .prn
  else if opc = ids.push then some .push
  else if opc = ids.pop then some .pop
  else none

/-- The table B handler with this identifier (R67, R73). -/
def tableB? (ids : OpcodeIds) (opc : Nibble) : Option Op :=
  if opc = ids.call then some .call
  else if opc = ids.ret then some .ret
  else if opc = ids.jmp then some .jmp
  else if opc = ids.jeq then some .jeq
  else if opc = ids.jne then some .jne
  else none

/-- Dispatch (R67): the test of `alu` comes first, and on the ALU path `spc` plays no part (R56). -/
def dispatch (ids : OpcodeIds) (ir : Byte) : Except DispatchFault Op :=
  let f := splitByte ir
  if f.alu then
    match aluOp? ids f.opc with
    | some op => .ok op
    | none => .error (.unsupportedAluOp ir)
  else
    match (if f.spc then tableB? ids f.opc else tableA? ids f.opc) with
    | some op => .ok op
    | none => .error (.unknownOpcode ir)

/-- Dispatch, then the arity check (R68): the operation a first byte names, or why it names none. -/
def identify (ids : OpcodeIds) (ir : Byte) : Except DispatchFault Op :=
  match dispatch ids ir with
  | .error e => .error e
  | .ok op => if (splitByte ir).n.toNat = op.arity then .ok op else .error (.illegalArity ir)

/-- The instruction made of an operation and its operand bytes; an operation of smaller arity ignores the rest. -/
def Op.build (op : Op) (a b : Byte) : Instr :=
  match op with
  | .add => .add a b
  | .mul => .mul a b
  | .cmp => .cmp a b
  | .halt => .halt
  | .ldi => .ldi a b
  | .prn => .prn a
  | .push => .push a
  | .pop => .pop a
  | .call => .call a
  | .ret => .ret
  | .jmp => .jmp a
  | .jeq => .jeq a
  | .jne => .jne a

/-- The operation of an instruction. -/
def Instr.op : Instr → Op
  | .add _ _ => .add
  | .mul _ _ => .mul
  | .cmp _ _ => .cmp
  | .halt => .halt
  | .ldi _ _ => .ldi
  | .prn _ => .prn
  | .push _ => .push
  | .pop _ => .pop
  | .call _ => .call
  | .ret => .ret
  | .jmp _ => .jmp
  | .jeq _ => .jeq
  | .jne _ => .jne

/-- The operand bytes of an instruction, in ascending address order: `a`, then `b` (R32, R49). -/
def Instr.operands : Instr → List Byte
  | .add a b => [a, b]
  | .mul a b => [a, b]
  | .cmp a b => [a, b]
  | .halt => []
  | .ldi a b => [a, b]
  | .prn a => [a]
  | .push a => [a]
  | .pop a => [a]
  | .call a => [a]
  | .ret => []
  | .jmp a => [a]
  | .jeq a => [a]
  | .jne a => [a]

/-- The order of R78 up to the operands: dispatch, arity, then `a = Fetch(1)` when `n >= 1` and `b = Fetch(2)` when
`n = 2`. Where the operand bytes come from is the caller's: a list of bytes, or the machine's memory. -/
def decodeWith {ε : Type} (ids : OpcodeIds) (reject : DispatchFault → ε) (operand : Nat → Except ε Byte)
    (ir : Byte) : Except ε Instr :=
  match identify ids ir with
  | .error e => .error (reject e)
  | .ok op =>
    match op.arity with
    | 0 => .ok (op.build 0 0)
    | 1 =>
      match operand 1 with
      | .error e => .error e
      | .ok a => .ok (op.build a 0)
    | _ =>
      match operand 1 with
      | .error e => .error e
      | .ok a =>
        match operand 2 with
        | .error e => .error e
        | .ok b => .ok (op.build a b)

/-- Operand byte `k` of an instruction that stands at the head of a list of bytes. -/
def operandAt (bytes : List Byte) (k : Nat) : Except DecodeError Byte :=
  match bytes[k]? with
  | some v => .ok v
  | none => .error (.truncated k)

/-- Decoding of a list of bytes, total: the instruction at its head and the bytes after it, or why there is none.
The length comes from the first byte alone (R47). -/
def decode (ids : OpcodeIds) (bytes : List Byte) : Except DecodeError (Instr × List Byte) :=
  match bytes with
  | [] => .error (.truncated 0)
  | ir :: _ =>
    match decodeWith ids .dispatch (operandAt bytes) ir with
    | .error e => .error e
    | .ok i => .ok (i, bytes.drop (1 + i.op.arity))

/-- The canonical first byte of an operation: `n` is its arity, `alu` is set for the ALU group, `spc` for table B
(R48, R52, R53). An ALU byte is written with `spc = 0` (R56). PRESUMED (log 11, safe): the spec marks that choice G2. -/
def Op.firstByte (ids : OpcodeIds) (op : Op) : Byte :=
  joinByte
    { n := BitVec.ofNat 2 op.arity
      alu := decide (op.group = .alu)
      spc := decide (op.group = .tableB)
      opc := ids.of op }

/-- The words of an instruction: its first byte and its operand bytes (R45, R48, R59). -/
def encode (ids : OpcodeIds) (i : Instr) : List Byte := i.op.firstByte ids :: i.operands

/-- The three bytes, lowest address first, of an instruction whose bits are numbered from the least significant bit
of its first byte; the bits from `nbits` on are 0. -/
def wordBytes (nbits w : Nat) : List Byte :=
  [BitVec.ofNat 8 (w % 2 ^ nbits), BitVec.ofNat 8 (w % 2 ^ nbits / 2 ^ 8), BitVec.ofNat 8 (w % 2 ^ nbits / 2 ^ 16)]

/-- What the decoder reads from an instruction of the opcode table, under the default identifiers. -/
def decodeTableWord (nbits w : Nat) : Option Instr :=
  match decode defaultIds (wordBytes nbits w) with
  | .ok (i, _) => some i
  | .error _ => none

/-- The register operands and the immediate as the spec writes them (R59): `ADD R0,R1`, `LDI R0,8`, `HALT`. -/
def Instr.text : Instr → String
  | .add a b => "ADD R" ++ toString a.toNat ++ ",R" ++ toString b.toNat
  | .mul a b => "MUL R" ++ toString a.toNat ++ ",R" ++ toString b.toNat
  | .cmp a b => "CMP R" ++ toString a.toNat ++ ",R" ++ toString b.toNat
  | .halt => "HALT"
  | .ldi a imm => "LDI R" ++ toString a.toNat ++ "," ++ toString imm.toNat
  | .prn a => "PRN R" ++ toString a.toNat
  | .push a => "PUSH R" ++ toString a.toNat
  | .pop a => "POP R" ++ toString a.toNat
  | .call a => "CALL R" ++ toString a.toNat
  | .ret => "RET"
  | .jmp a => "JMP R" ++ toString a.toNat
  | .jeq a => "JEQ R" ++ toString a.toNat
  | .jne a => "JNE R" ++ toString a.toNat

end Sys2Proof
end

