-- ==== Sys2Proof/Machine/Operands.lean ====
section
/-! DEFINITION. The helpers of R69 to R72: the operand fetch, the register-index test and the advance. -/

namespace Sys2Proof.Machine

/-- The 9-bit sum of an address and a small constant, tested against 255 (R36). -/
def pcPlus (pc : Byte) (k : Nat) : Except Fault Byte :=
  let t : Addr9 := zext9 pc + BitVec.ofNat 9 k
  if 255 < t.toNat then .error (.memRangeFault t) else .ok (low8 t)

/-- `Fetch(k)` (R69): operand byte `k` of the instruction at `pc`. -/
def State.fetch (s : State) (k : Nat) : Except Fault Byte :=
  match pcPlus s.pc k with
  | .error f => .error f
  | .ok t => .ok (s.read t)

/-- The index test of `RegRead` and `RegWrite` (R50, R70, R71): all eight bits of the operand byte count. -/
def checkReg (v : Byte) : Except Fault RegIndex :=
  if h : v.toNat < 8 then .ok ⟨v.toNat, h⟩ else .error (.regRangeFault v)

/-- The sum of `Advance(n)` (R72), and of the return address of `CALL` (R107): the address after an instruction of
`n` operand bytes. -/
def advance (s : State) (n : Nat) : Except Fault Byte := pcPlus s.pc (1 + n)

/-- The operand fetches and dispatch of R78 on the machine's own memory: the instruction at `pc`, or the fault that
dispatch, the arity check or an operand fetch raises. -/
def fetchInstr (ids : OpcodeIds) (s : State) : Except Fault Instr :=
  decodeWith ids Fault.ofDispatch s.fetch (s.read s.pc)

/-- `bytes` in the cells from `base` upward; a byte past cell 255 has no cell. -/
def placeBytes (base : Nat) : List Byte → Memory → Memory
  | [], m => m
  | b :: bs, m => placeBytes (base + 1) bs (if base < Config.memSize then Memory.put base b m else m)

end Sys2Proof.Machine
end

