-- ==== Sys2Proof/Machine/Alu.lean ====
section
/-! DEFINITION. The ALU group: `ADD`, `MUL`, `CMP` (spec/41_alu.md). -/

namespace Sys2Proof.Machine

/-- The checks the three ALU instructions share, in the order of R81 to R83: index `a`, index `b`, the advance by 3.
The effect gets the two register indices and the next `pc`. -/
def withRegPair (a b : Byte) (s : State) (effect : RegIndex → RegIndex → Byte → State) : Except Fault State := do
  let ra ← checkReg a
  let rb ← checkReg b
  let next ← advance s 2
  return effect ra rb next

/-- `ADD Ra,Rb` (R81): the sum modulo 256 (R85). -/
def execAdd (a b : Byte) (s : State) : Host.Outcome State Fault Refusal :=
  conclude s (withRegPair a b s fun ra rb next => (s.setReg ra (s.reg ra + s.reg rb)).setPc next)

/-- `MUL Ra,Rb` (R82): the low 8 bits of the product (R85). -/
def execMul (a b : Byte) (s : State) : Host.Outcome State Fault Refusal :=
  conclude s (withRegPair a b s fun ra rb next => (s.setReg ra (s.reg ra * s.reg rb)).setPc next)

/-- `CMP Ra,Rb` (R83): all three flags, no register. -/
def execCmp (a b : Byte) (s : State) : Host.Outcome State Fault Refusal :=
  conclude s (withRegPair a b s fun ra rb next => (s.setFlags (compareFlags (s.reg ra) (s.reg rb))).setPc next)

end Sys2Proof.Machine
end

