-- ==== Sys2Proof/Machine/Stack.lean ====
section
/-! DEFINITION. `PUSH`, `POP` (spec/43_stack.md). The stack has no bounds (R101). -/

namespace Sys2Proof.Machine

/-- The two writes of a push in the order of R99 and R107: decrement, then store at the new stack pointer. The
value is computed from the state after the decrement. -/
def State.push (s : State) (value : State → Byte) : State := s.decSp.write s.decSp.sp (value s.decSp)

/-- `PUSH Ra` (R99): `x[a]` is read after the decrement, so `PUSH R7` stores the new stack pointer. -/
def execPush (a : Byte) (s : State) : Host.Outcome State Fault Refusal :=
  conclude s do
    let ra ← checkReg a
    let next ← advance s 1
    return (s.push (fun t => t.reg ra)).setPc next

/-- `POP Ra` (R100): the load is written first, then `x[7]` is incremented, so `POP R7` ends with the loaded value
plus 1. -/
def execPop (a : Byte) (s : State) : Host.Outcome State Fault Refusal :=
  conclude s do
    let ra ← checkReg a
    let next ← advance s 1
    return ((s.setReg ra (s.read s.sp)).incSp).setPc next

end Sys2Proof.Machine
end

