-- ==== Sys2Proof/Machine/ControlTransfer.lean ====
section
/-! DEFINITION. `CALL`, `RET`, `JMP`, `JEQ`, `JNE` and the conditional jump they share (spec/44_control_transfer.md). -/

namespace Sys2Proof.Machine

/-- `CALL Ra` (R107): push the return address, then jump; the target is read after the decrement. -/
def execCall (a : Byte) (s : State) : Host.Outcome State Fault Refusal :=
  conclude s do
    let ra ← checkReg a
    let ret ← advance s 1
    return (s.push (fun _ => ret)).setPc (s.decSp.reg ra)

/-- `RET` (R108): no check; `pc` takes the top of the stack, then `x[7]` is incremented. -/
def execRet (s : State) : Host.Outcome State Fault Refusal := .next (s.setPc (s.read s.sp)).incSp

/-- The unconditional transfer of R109, also the taken path of R113 and R114: the index is tested, nothing advances. -/
def jumpTo (a : Byte) (s : State) : Except Fault State := do
  let ra ← checkReg a
  return s.setPc (s.reg ra)

/-- A conditional jump (R113, R114): when it is not taken the register is not accessed (R75).
DEDUCED (log 8, unsafe where the hardware differs): the spec's decision D25. -/
def branch (taken : Bool) (a : Byte) (s : State) : Except Fault State :=
  if taken then jumpTo a s
  else do
    let next ← advance s 1
    return s.setPc next

/-- `JMP Ra` (R109). -/
def execJmp (a : Byte) (s : State) : Host.Outcome State Fault Refusal := conclude s (jumpTo a s)

/-- `JEQ Ra` (R113). -/
def execJeq (a : Byte) (s : State) : Host.Outcome State Fault Refusal := conclude s (branch (takenJeq s.fl) a s)

/-- `JNE Ra` (R114). -/
def execJne (a : Byte) (s : State) : Host.Outcome State Fault Refusal := conclude s (branch (takenJne s.fl) a s)

end Sys2Proof.Machine
end

