-- ==== Sys2Proof/Machine/FlowNeutral.lean ====
section
/-! DEFINITION. `HALT`, `LDI`, `PRN` (spec/42_flow_neutral.md). -/

namespace Sys2Proof.Machine

/-- `HALT` (R90): no check, no advance, `CAUSE` kept. -/
def execHalt (s : State) : Host.Outcome State Fault Refusal := .next s.halt

/-- `LDI Ra,imm` (R91). -/
def execLdi (a imm : Byte) (s : State) : Host.Outcome State Fault Refusal :=
  conclude s do
    let ra ← checkReg a
    let next ← advance s 2
    return (s.setReg ra imm).setPc next

/-- `PRN Ra` (R92). -/
def execPrn (a : Byte) (s : State) : Host.Outcome State Fault Refusal :=
  conclude s do
    let ra ← checkReg a
    let next ← advance s 1
    return (s.emit (s.reg ra)).setPc next

end Sys2Proof.Machine
end

