-- ==== Sys2Proof/Machine/Sequencer.lean ====
section
/-! DEFINITION. The whole step of R78, for any opcode map. -/

namespace Sys2Proof.Machine

/-- `Step(S)` (R78) under the opcode map `ids`: no step when halted (R76); else fetch, dispatch, arity check and
operand fetches, then the rule of the instruction; a fault raised before that rule is taken in the state as it is.
DESIGN CHOICE (log 6, safe): `RUN` is looked at here and not in `exec`. -/
def stepWith (ids : OpcodeIds) (s : State) : Host.Outcome State Fault Refusal :=
  match s.run with
  | .halted => .refused .halted
  | .running =>
    match fetchInstr ids s with
    | .ok i => exec i s
    | .error f => .next (takeFault f s)

end Sys2Proof.Machine
end

