-- ==== Sys2Proof/Machine/Step.lean ====
section
/-! DEFINITION. The machine's step under the default opcode map, and the placing of one instruction where it fetches. -/

namespace Sys2Proof.Machine

/-- One step of the machine (R78) with the default `OPCODE_ID` (R52). PRESUMED (log 1, unsafe). -/
def step (s : State) : Host.Outcome State Fault Refusal := stepWith defaultIds s

/-- `s` with one instruction's bytes stored at `pc`, where the next step fetches; the fetch needs the machine
running, and a running machine has no cause. DESIGN CHOICE (log 7, safe). -/
def State.withFetchWord (s : State) (nbits w : Nat) : State :=
  { s with mem := placeBytes s.pc.toNat (wordBytes nbits w) s.mem, run := .running, cause := .none }

end Sys2Proof.Machine
end

