-- ==== Sys2Proof/Machine/Block.lean ====
section
/-! DEFINITION. The hardware reading of spec/45_block_interfaces.md: the sub-blocks as combinational functions, the
control word of each instruction, and one step of the block with the events at its memory and output ports. It adds
no behaviour (45_block_interfaces.md, head); it is written from R120 to R134 apart from the instruction meanings, so
that the two can be proved equal. Clock cycles are not modelled (R122). DESIGN CHOICE (log 12): safe for
claims about state, unsafe for a claim about the reads of a faulting step. -/

namespace Sys2Proof.Machine

/-- One event at the ports, in the order R42 and R122 give (R121, R123, R131). -/
inductive PortEvent where
  /-- `mem_re`: a read of the cell at this address. -/
  | memRead (addr : Byte)
  /-- `mem_we`: a write of this byte to the cell at this address. -/
  | memWrite (addr data : Byte)
  /-- `out_valid` with `out_data`. -/
  | emit (data : Byte)
  deriving DecidableEq, Repr

/-- The outputs of the dispatch logic (R125). -/
structure DispatchLines where
  op : Option Op
  errAluOp : Bool
  errOpcode : Bool
  errArity : Bool
  deriving DecidableEq, Repr

/-- The group the bits `alu` and `spc` select; `spc` plays no part when `alu = 1` (R67). -/
def selectedGroup (f : Fields) : Group := if f.alu then .alu else if f.spc then .tableB else .tableA

/-- The thirteen lines of the select. -/
def allOps : List Op := [.add, .mul, .cmp, .halt, .ldi, .prn, .push, .pop, .call, .ret, .jmp, .jeq, .jne]

/-- The dispatch logic (R125): at most one of `op` valid and the three error lines; `errAluOp` and `errOpcode` take
precedence over `errArity`. -/
def dispatchLines (ids : OpcodeIds) (f : Fields) : DispatchLines :=
  let found := allOps.find? fun op => op.group = selectedGroup f ∧ ids.of op = f.opc
  { op := found.filter fun op => op.arity = f.n.toNat
    errAluOp := found.isNone && f.alu
    errOpcode := found.isNone && !f.alu
    errArity := found.any fun op => op.arity ≠ f.n.toNat }

/-- The operation select of the ALU (R126). -/
inductive AluOp where
  | add | mul | cmp
  deriving DecidableEq, Repr

/-- The outputs of the ALU (R126). An output whose write enable is 0 is a don't care there and absent here. -/
structure AluOut where
  /-- `res` when `res_we = 1`. -/
  res : Option Byte
  /-- `fl_next`, packed `L G E`, when `fl_we = 1`. -/
  flNext : Option (BitVec 3)
  deriving DecidableEq, Repr

/-- The ALU (R126), over the exact integers and then cut to 8 bits. -/
def aluUnit (op : AluOp) (opa opb : Byte) : AluOut :=
  match op with
  | .add => { res := some (BitVec.ofNat 8 (opa.toNat + opb.toNat)), flNext := none }
  | .mul => { res := some (BitVec.ofNat 8 (opa.toNat * opb.toNat)), flNext := none }
  | .cmp =>
    { res := none
      flNext := some (if opa.toNat = opb.toNat then 1#3 else if opb.toNat < opa.toNat then 2#3 else 4#3) }

/-- The three bits of the flags register, `L G E` from bit 2 to bit 0 (R19, R127). -/
def Flags.unpack (v : BitVec 3) : Flags where
  e := v.getLsbD 0
  g := v.getLsbD 1
  l := v.getLsbD 2

/-- The mode of the stack unit (R128). -/
inductive StackMode where
  | push | pop
  deriving DecidableEq, Repr

/-- The outputs of the stack unit (R128). -/
structure StackOut where
  spNext : Byte
  stkAddr : Byte
  deriving DecidableEq, Repr

/-- The stack unit (R128). -/
def stackUnit (mode : StackMode) (sp : Byte) : StackOut :=
  match mode with
  | .push => { spNext := BitVec.ofNat 8 (sp.toNat + 255), stkAddr := BitVec.ofNat 8 (sp.toNat + 255) }
  | .pop => { spNext := BitVec.ofNat 8 (sp.toNat + 1), stkAddr := sp }

/-- The kind input of the branch evaluator (R129). -/
inductive BranchKind where
  | jmp | jeq | jne
  deriving DecidableEq, Repr

/-- The branch evaluator (R129). Its only input from the flags is `fl_e`. -/
def branchUnit (kind : BranchKind) (flE : Bool) : Bool :=
  match kind with
  | .jmp => true
  | .jeq => flE
  | .jne => !flE

/-- The index check of the register mux (R130): an error when any of bits 7 to 3 is set. -/
def idxErr (sel : Byte) : Bool := decide (sel.extractLsb' 3 5 ≠ 0)

/-- Which operand registers an instruction reads (R134, column "operand reads"). -/
inductive OperandReads where
  | none | a | ab | aIfTaken
  deriving DecidableEq, Repr

/-- What is written to `x[a]` (R134, column "reg write", apart from the stack pointer's own write). -/
inductive RegWriteSource where
  | none | aluResult | immediate | readData
  deriving DecidableEq, Repr

/-- The data memory access (R134, column "data memory"). -/
inductive DataAccess where
  | none | writeReg | writeReturn | read
  deriving DecidableEq, Repr

/-- The next-`pc` source (R133; R134, column "pc source"). -/
inductive PcSource where
  /-- `(pc + 1 + n)[7:0]` after its range test. -/
  | advance
  /-- `x[a]`. -/
  | register
  /-- The stack read. -/
  | memory
  /-- `pc` itself. -/
  | hold
  /-- `x[a]` if taken, else the advance. -/
  | branch (kind : BranchKind)
  deriving DecidableEq, Repr

/-- One row of R134. `alu` carries the row's `FL` column too: the ALU writes `FL` for `CMP` only (R126). -/
structure ControlWord where
  reads : OperandReads
  alu : Option AluOp
  regWrite : RegWriteSource
  stack : Option StackMode
  data : DataAccess
  outValid : Bool
  pc : PcSource
  halts : Bool
  deriving DecidableEq, Repr

/-- The control table (R134). -/
def controlWord : Op → ControlWord
  | .add => ⟨.ab, some .add, .aluResult, none, .none, false, .advance, false⟩
  | .mul => ⟨.ab, some .mul, .aluResult, none, .none, false, .advance, false⟩
  | .cmp => ⟨.ab, some .cmp, .none, none, .none, false, .advance, false⟩
  | .halt => ⟨.none, none, .none, none, .none, false, .hold, true⟩
  | .ldi => ⟨.none, none, .immediate, none, .none, false, .advance, false⟩
  | .prn => ⟨.a, none, .none, none, .none, true, .advance, false⟩
  | .push => ⟨.a, none, .none, some .push, .writeReg, false, .advance, false⟩
  | .pop => ⟨.none, none, .readData, some .pop, .read, false, .advance, false⟩
  | .call => ⟨.a, none, .none, some .push, .writeReturn, false, .register, false⟩
  | .ret => ⟨.none, none, .none, some .pop, .read, false, .memory, false⟩
  | .jmp => ⟨.a, none, .none, none, .none, false, .branch .jmp, false⟩
  | .jeq => ⟨.aIfTaken, none, .none, none, .none, false, .branch .jeq, false⟩
  | .jne => ⟨.aIfTaken, none, .none, none, .none, false, .branch .jne, false⟩

/-- Whether the jump of this control word is taken; only a branch can be (R129). -/
def ControlWord.taken (cw : ControlWord) (flE : Bool) : Bool :=
  match cw.pc with
  | .branch kind => branchUnit kind flE
  | _ => false

/-- The select of operand `a` is in use: the register is read, or written (R130). -/
def ControlWord.usesA (cw : ControlWord) (flE : Bool) : Bool :=
  (match cw.reads with
   | .none => false
   | .a => true
   | .ab => true
   | .aIfTaken => cw.taken flE) || decide (cw.regWrite ≠ .none)

/-- The select of operand `b` is in use (R130). -/
def ControlWord.usesB (cw : ControlWord) : Bool := decide (cw.reads = .ab)

/-- The sum `pc + 1 + n` is used: as the next `pc` or as the return address (R133, R107). -/
def ControlWord.usesAdvance (cw : ControlWord) (flE : Bool) : Bool :=
  (match cw.pc with
   | .advance => true
   | .branch _ => !cw.taken flE
   | _ => false) || decide (cw.data = .writeReturn)

/-- The first fault of the check phase after the operand fetches, in the order of R142: index `a`, index `b`, the
advance or the return address. -/
def checkPhase (cw : ControlWord) (n : Nat) (a b : Byte) (s : State) : Option Fault :=
  if cw.usesA s.fl.e && idxErr a then some (.regRangeFault a)
  else if cw.usesB && idxErr b then some (.regRangeFault b)
  else if cw.usesAdvance s.fl.e && decide (255 < s.pc.toNat + 1 + n) then
    some (.memRangeFault (BitVec.ofNat 9 (s.pc.toNat + 1 + n)))
  else none

/-- The read side of the register mux (R130) for a select that has passed its index check; a select above 7 has no
register. -/
def muxRead (x : Vector Byte 8) (sel : Byte) : Option Byte := x[sel.toNat]?

/-- The write side of the register mux (R130); a select above 7 has no register. -/
def muxWrite (x : Vector Byte 8) (sel data : Byte) : Vector Byte 8 :=
  if h : sel.toNat < 8 then x.set sel.toNat data h else x

/-- An optional write: the register mux keeps `x` when the enable is off or there is no data. -/
def muxWriteIf (x : Vector Byte 8) (sel : Byte) (data : Option Byte) : Vector Byte 8 :=
  match data with
  | some v => muxWrite x sel v
  | none => x

/-- What one step of the block leaves: the state and the events at its ports, oldest first. -/
structure BlockResult where
  state : State
  events : List PortEvent
  deriving DecidableEq, Repr

/-- The dedicated stack-pointer write of a push, which comes before the operand registers are read (R128). -/
def pushSp (cw : ControlWord) (x : Vector Byte 8) : Vector Byte 8 :=
  if cw.stack = some .push then x.set 7 (stackUnit .push x[7]).spNext else x

/-- The dedicated stack-pointer write of a pop, which comes after the register write (R128, R130). -/
def popSp (cw : ControlWord) (x : Vector Byte 8) : Vector Byte 8 :=
  if cw.stack = some .pop then x.set 7 (stackUnit .pop x[7]).spNext else x

/-- The byte a control word writes to data memory: `x[a]`, or the return address (R128, R134). -/
def writeData (cw : ControlWord) (n : Nat) (opa : Option Byte) (s : State) : Option Byte :=
  match cw.data with
  | .writeReg => opa
  | .writeReturn => some (BitVec.ofNat 8 (s.pc.toNat + 1 + n))
  | .none => none
  | .read => none

/-- The byte a control word reads from data memory, at the old stack pointer (R128). -/
def readData (cw : ControlWord) (s : State) : Option Byte :=
  if cw.data = .read then some (s.read (stackUnit .pop s.x[7]).stkAddr) else none

/-- The ALU's outputs, if the control word uses it and both operands are there. -/
def aluData (cw : ControlWord) (opa opb : Option Byte) : Option AluOut :=
  match cw.alu, opa, opb with
  | some op, some u, some v => some (aluUnit op u v)
  | _, _, _ => none

/-- The byte written to `x[a]` (R134). -/
def regWriteData (cw : ControlWord) (b : Byte) (alu : Option AluOut) (rdata : Option Byte) : Option Byte :=
  match cw.regWrite with
  | .none => none
  | .aluResult => alu.bind AluOut.res
  | .immediate => some b
  | .readData => rdata

/-- The next `pc` (R133). -/
def nextPc (cw : ControlWord) (n : Nat) (opa rdata : Option Byte) (s : State) : Byte :=
  let adv := BitVec.ofNat 8 (s.pc.toNat + 1 + n)
  match cw.pc with
  | .advance => adv
  | .register => opa.getD s.pc
  | .memory => rdata.getD s.pc
  | .hold => s.pc
  | .branch kind => if branchUnit kind s.fl.e then opa.getD s.pc else adv

/-- The effect phase of an instruction that has passed its checks, from its control word (R126 to R134), with the
data access and the emitted value as events. -/
def effectPhase (cw : ControlWord) (n : Nat) (a b : Byte) (s : State) : BlockResult :=
  let x₁ := pushSp cw s.x
  let opa := muxRead x₁ a
  let opb := muxRead x₁ b
  let alu := aluData cw opa opb
  let rdata := readData cw s
  let wdata := writeData cw n opa s
  let emitted := if cw.outValid then opa else none
  { state :=
      { mem := match wdata with
          | some v => Memory.put (stackUnit .push s.x[7]).stkAddr.toNat v s.mem
          | none => s.mem
        x := popSp cw (muxWriteIf x₁ a (regWriteData cw b alu rdata))
        pc := nextPc cw n opa rdata s
        fl := match alu.bind AluOut.flNext with
          | some v => Flags.unpack v
          | none => s.fl
        run := if cw.halts then .halted else s.run
        cause := s.cause
        out := s.out ++ emitted.toList }
    events :=
      (match wdata with
        | some v => [.memWrite (stackUnit .push s.x[7]).stkAddr v]
        | none => []) ++
      (if cw.data = .read then [.memRead (stackUnit .pop s.x[7]).stkAddr] else []) ++
      emitted.toList.map .emit }

/-- The reads of the operand bytes that exist, ascending (R42, R43). -/
def operandReads (n : Nat) (s : State) : List PortEvent :=
  ((List.range' 1 n).filter fun k => s.pc.toNat + k ≤ 255).map fun k =>
    .memRead (BitVec.ofNat 8 (s.pc.toNat + k))

/-- The fault the three error lines report for the byte `ir` (R125, R135). -/
def DispatchLines.fault (d : DispatchLines) (ir : Byte) : Option Fault :=
  if d.errAluOp then some (.unsupportedAluOp ir)
  else if d.errOpcode then some (.unknownOpcode ir)
  else if d.errArity then some (.illegalArity ir)
  else none

/-- One step of the block from a running state (R120 to R134): none when halted (R76). A fault leaves everything but
`RUN` and `CAUSE` (R141) and writes nothing (R43). The last arm, no operation and no error line, is reached by no
byte (R125). -/
def blockStep (ids : OpcodeIds) (s : State) : Option BlockResult :=
  match s.run with
  | .halted => none
  | .running =>
    let ir := s.read s.pc
    let lines := dispatchLines ids (splitByte ir)
    match lines.op, lines.fault ir with
    | some op, none =>
      let n := op.arity
      let reads := .memRead s.pc :: operandReads n s
      if 255 < s.pc.toNat + n then some ⟨takeFault (.memRangeFault 256) s, reads⟩
      else
        let a := s.read (s.pc + 1)
        let b := s.read (s.pc + 2)
        match checkPhase (controlWord op) n a b s with
        | some f => some ⟨takeFault f s, reads⟩
        | none =>
          let r := effectPhase (controlWord op) n a b s
          some ⟨r.state, reads ++ r.events⟩
    | _, some f => some ⟨takeFault f s, [.memRead s.pc]⟩
    | none, none => some ⟨s, [.memRead s.pc]⟩

/-- Memory after the writes in a list of events, oldest first. -/
def applyWrites (m : Memory) : List PortEvent → Memory
  | [] => m
  | .memWrite addr v :: es => applyWrites (Memory.put addr.toNat v m) es
  | .memRead _ :: es => applyWrites m es
  | .emit _ :: es => applyWrites m es

/-- The values emitted in a list of events, oldest first. -/
def emittedValues : List PortEvent → List Byte
  | [] => []
  | .emit v :: es => v :: emittedValues es
  | .memRead _ :: es => emittedValues es
  | .memWrite _ _ :: es => emittedValues es

/-- The reads in a list of events. -/
def countReads : List PortEvent → Nat
  | [] => 0
  | .memRead _ :: es => countReads es + 1
  | .memWrite _ _ :: es => countReads es
  | .emit _ :: es => countReads es

/-- The writes in a list of events. -/
def countWrites : List PortEvent → Nat
  | [] => 0
  | .memWrite _ _ :: es => countWrites es + 1
  | .memRead _ :: es => countWrites es
  | .emit _ :: es => countWrites es

/-- The block under its reset input (R121, R155): while `rst` is high the state holds its reset values; else the block
takes its step, and a halted block keeps its state. -/
def clockBlock (ids : OpcodeIds) (rst : Bool) (s : State) : State :=
  if rst then s.applyReset
  else
    match blockStep ids s with
    | some r => r.state
    | none => s

end Sys2Proof.Machine
end

