-- ==== Sys2Proof/Machine/Launch.lean ====
section
/-! DEFINITION. What stands around the core: the loader's contract and launch, the values at the ports, the host's
exit code, and the text format of an image. None of it is a step of the machine. -/

namespace Sys2Proof.Machine

/-- Launch (R25, R158, R159): the machine out of reset with the image in memory from address 0 upward. `rest` is the
rest of the parameter `M0`: what the cells the image does not cover hold, left open by the spec (D9). DESIGN CHOICE (log 3, safe). A launch whose
image is empty or longer than 256 bytes is refused. -/
def launch (rest : Memory) (image : List Byte) : Option State :=
  if 1 ≤ image.length ∧ image.length ≤ Config.memSize then
    some { State.reset with mem := placeBytes Config.loadBase image rest }
  else none

/-- What the host reads at the block's status ports (R121). -/
structure Ports where
  /-- `halted`: 1 when `RUN = Halted`. -/
  halted : BitVec 1
  /-- `cause`: the code of `CAUSE`. -/
  cause : BitVec 3
  /-- `pc_o`: the current `pc`. -/
  pcO : Byte
  deriving DecidableEq, Repr

/-- The status ports of a state (R121). -/
def State.ports (s : State) : Ports where
  halted := BitVec.ofBool (decide (s.run = .halted))
  cause := s.cause.code
  pcO := s.pc

/-- The exit code the spec suggests to the host (R162): none while the run goes on, 0 after `HALT`, 1 after a
fault. DESIGN CHOICE (log 13, safe): the 1 of the last four causes is the spec's suggestion; the core has no such value. -/
def hostExitCode (s : State) : Option Nat :=
  match s.run, s.cause with
  | .running, _ => none
  | .halted, .none => some 0
  | .halted, _ => some 1

/-- A line of an image file (R61). -/
inductive ImageLine where
  /-- A machine-code line: one byte. -/
  | code (b : Byte)
  /-- A blank or comment line. -/
  | skipped
  /-- A line that begins with `0` or `1` and whose first 8 characters are no base-2 number: R61 gives it no meaning.
  DESIGN CHOICE (log 14, safe). -/
  | malformed
  deriving DecidableEq, Repr

/-- A base-2 digit. -/
def binaryDigit (c : Char) : Option Nat := if c = '0' then some 0 else if c = '1' then some 1 else none

/-- The number whose base-2 digits, most significant first, are the characters. -/
def binaryValue (acc : Nat) : List Char → Option Nat
  | [] => some acc
  | c :: cs =>
    match binaryDigit c with
    | some d => binaryValue (2 * acc + d) cs
    | none => none

/-- One line of the image text (R61): the first character decides, the first 8 characters are the byte, bit 7 first. -/
def imageLine (line : List Char) : ImageLine :=
  match line with
  | [] => .skipped
  | c :: _ =>
    match binaryDigit c with
    | none => .skipped
    | some _ =>
      if line.length < 8 then .malformed
      else
        match binaryValue 0 (line.take 8) with
        | some v => .code (BitVec.ofNat 8 v)
        | none => .malformed

/-- The bytes of an image in file order (R61); none if a line is malformed. -/
def imageBytes : List (List Char) → Option (List Byte)
  | [] => some []
  | line :: rest =>
    match imageLine line, imageBytes rest with
    | .code b, some bs => some (b :: bs)
    | .skipped, some bs => some bs
    | _, _ => none

end Sys2Proof.Machine
end

