-- ==== Sys2Proof/Safety.lean ====
section
/-! DEFINITION. The words claims use: the invariant of every step, the two endings of a run, and what two states may
have in common. -/

namespace Sys2Proof.Machine

/-- `FL` is all clear or has exactly one bit set (R86). -/
abbrev State.FlagsLegal (s : State) : Prop := s.fl.Clear ∨ s.fl.OneSet

/-- What every state of a run keeps: memory in canonical form, legal flags (R86), and no cause while running (R24). -/
abbrev State.Inv (s : State) : Prop :=
  Memory.wf s.mem ∧ s.FlagsLegal ∧ (s.run = .running → s.cause = .none)

/-- The normal end of a run (R161): halted by `HALT`. -/
abbrev State.EndedNormally (s : State) : Prop := s.run = .halted ∧ s.cause = .none

/-- The fatal end of a run (R161): halted by a fault. -/
abbrev State.EndedFatally (s : State) : Prop := s.run = .halted ∧ s.cause ≠ .none

/-- Every one of the 256 cells reads the same in `t` as in `s`. -/
def SameMem (s t : State) : Prop := ∀ addr : Byte, t.read addr = s.read addr

/-- Every cell but the one at `addr` reads the same in `t` as in `s`. -/
def SameMemBut (addr : Byte) (s t : State) : Prop := ∀ other : Byte, other ≠ addr → t.read other = s.read other

/-- Every register reads the same in `t` as in `s`. -/
def SameRegs (s t : State) : Prop := ∀ r : RegIndex, t.reg r = s.reg r

/-- Every register but `d` reads the same in `t` as in `s`. -/
def SameRegsBut (d : RegIndex) (s t : State) : Prop := ∀ r : RegIndex, r ≠ d → t.reg r = s.reg r

/-- `RUN` and `CAUSE` are the same. -/
def SameRun (s t : State) : Prop := t.run = s.run ∧ t.cause = s.cause

/-- `FL`, `RUN`, `CAUSE` and `OUT` are the same. -/
def SameControl (s t : State) : Prop := t.fl = s.fl ∧ SameRun s t ∧ t.out = s.out

/-- The state with other contents of memory. -/
def State.withMem (s : State) (m : Memory) : State := { s with mem := m }

/-- The state with another output trace. -/
def State.withOut (s : State) (o : List Byte) : State := { s with out := o }

/-- A step of `i` ends in the fault `f`: the state before it, but for `RUN` and `CAUSE` (R141). -/
def Faults (i : Instr) (s : State) (f : Fault) : Prop := exec i s = .next (takeFault f s)

/-- The byte `ir` is a first byte of the operation `op` under the map `ids`: its count field is the arity, its
identifier is the operation's, and its bits `alu` and `spc` select the operation's group (R48, R52; on the ALU path
either value of `spc`, R56). -/
abbrev Names (ids : OpcodeIds) (ir : Byte) (op : Op) : Prop :=
  (splitByte ir).n.toNat = op.arity ∧ (splitByte ir).opc = ids.of op ∧ selectedGroup (splitByte ir) = op.group

/-- The fetch part of an instruction's rule: under every opcode map that R52 admits, a running machine whose byte at
`pc` names `op` runs the instruction made of the operand bytes at `pc + 1` and `pc + 2` (as many as `op` takes), and
takes `MemRangeFault` at 256 where one of them would lie past address 255. -/
def RunsAs (op : Op) (mk : Byte → Byte → Instr) : Prop :=
  ∀ (ids : OpcodeIds) (s : State), ids.Distinct → s.run = .running → Names ids (s.read s.pc) op →
    stepWith ids s =
      if s.pc.toNat + op.arity ≤ 255 then exec (mk (s.read (s.pc + 1)) (s.read (s.pc + 2))) s
      else .next (takeFault (.memRangeFault 256) s)

/-- The bytes at `pc`, `pc + 1`, `pc + 2` that lie inside the 256 cells. -/
def State.codeBytes (s : State) : List Byte :=
  ((List.range 3).filter fun k => s.pc.toNat + k ≤ 255).map fun k => s.read (s.pc + BitVec.ofNat 8 k)

/-- The registers an instruction writes (R13, column "writes"). -/
def WritesReg (i : Instr) (r : RegIndex) : Prop :=
  match i with
  | .add a _ => r.byte = a
  | .mul a _ => r.byte = a
  | .cmp _ _ => False
  | .halt => False
  | .ldi a _ => r.byte = a
  | .prn _ => False
  | .push _ => r = spIndex
  | .pop a => r.byte = a ∨ r = spIndex
  | .call _ => r = spIndex
  | .ret => r = spIndex
  | .jmp _ => False
  | .jeq _ => False
  | .jne _ => False

/-- The registers an instruction reads under the flags `fl` (R13, column "reads"). -/
def ReadsReg (i : Instr) (fl : Flags) (r : RegIndex) : Prop :=
  match i with
  | .add a b => r.byte = a ∨ r.byte = b
  | .mul a b => r.byte = a ∨ r.byte = b
  | .cmp a b => r.byte = a ∨ r.byte = b
  | .halt => False
  | .ldi _ _ => False
  | .prn a => r.byte = a
  | .push a => r = spIndex ∨ r.byte = a
  | .pop _ => r = spIndex
  | .call a => r = spIndex ∨ r.byte = a
  | .ret => r = spIndex
  | .jmp a => r.byte = a
  | .jeq a => fl.e = true ∧ r.byte = a
  | .jne a => fl.e = false ∧ r.byte = a

/-- The events at the ports of an instruction that passes its checks, in the order of R42 and R43 with the emitted
value of R131: the instruction byte, the operand bytes ascending, then the data access or the emitted value. -/
def expectedEvents (i : Instr) (s : State) : List PortEvent :=
  .memRead s.pc :: (match i with
    | .add _ _ => [.memRead (s.pc + 1), .memRead (s.pc + 2)]
    | .mul _ _ => [.memRead (s.pc + 1), .memRead (s.pc + 2)]
    | .cmp _ _ => [.memRead (s.pc + 1), .memRead (s.pc + 2)]
    | .halt => []
    | .ldi _ _ => [.memRead (s.pc + 1), .memRead (s.pc + 2)]
    | .prn a =>
      match checkReg a with
      | .ok r => [.memRead (s.pc + 1), .emit (s.reg r)]
      | .error _ => [.memRead (s.pc + 1)]
    | .push a =>
      match checkReg a with
      | .ok r => [.memRead (s.pc + 1), .memWrite s.decSp.sp (s.decSp.reg r)]
      | .error _ => [.memRead (s.pc + 1)]
    | .pop _ => [.memRead (s.pc + 1), .memRead s.sp]
    | .call _ => [.memRead (s.pc + 1), .memWrite s.decSp.sp (s.pc + 2)]
    | .ret => [.memRead s.sp]
    | .jmp _ => [.memRead (s.pc + 1)]
    | .jeq _ => [.memRead (s.pc + 1)]
    | .jne _ => [.memRead (s.pc + 1)])

/-- The next state inside an outcome, changed by `g`; a fault or a refusal stays what it is. -/
def mapNext (g : State → State) (o : Host.Outcome State Fault Refusal) : Host.Outcome State Fault Refusal :=
  match o with
  | .next t => .next (g t)
  | .fault f => .fault f
  | .refused r => .refused r

end Sys2Proof.Machine
end

