-- ==== Sys2Proof/Certificates/Slice0/Obligations.lean ====
section
/-! DEFINITION. The statements for the provers, from the numbered rules of spec/. A docstring that says "the spec's
decision D<n>" names a choice of spec/92_eei_decisions.md that the rule carries. `ids` is the open parameter
`OPCODE_ID` (D1) and `step` is `stepWith defaultIds`. -/

open Sys2Proof Sys2Proof.Machine

/-! ## Encoding -/

/-- R48, R52: words written bit by bit under the default identifiers decode to their instructions. The default
identifiers are the spec's decision D1 from general knowledge (log 1). -/
def Obligations.SampleWordsDecode : Prop :=
  decode defaultIds [0b10100000, 0, 1] = .ok (.add 0 1, []) ∧
  decode defaultIds [0b10110111, 2, 3] = .ok (.cmp 2 3, []) ∧
  decode defaultIds [0b00000001] = .ok (.halt, []) ∧
  decode defaultIds [0b10000010, 7, 200] = .ok (.ldi 7 200, []) ∧
  decode defaultIds [0b01000110, 4, 9] = .ok (.pop 4, [9]) ∧
  decode defaultIds [0b01010000, 6] = .ok (.call 6, []) ∧
  decode defaultIds [0b00010001] = .ok (.ret, [])

/-- What R54's map shows for a first byte: 0 for an instruction, 1, 2, 3 for `u1`, `u2`, `u3`. -/
def firstByteKind (ids : OpcodeIds) (ir : Byte) : Nat :=
  match identify ids ir with
  | .ok _ => 0
  | .error (.unsupportedAluOp _) => 1
  | .error (.unknownOpcode _) => 2
  | .error (.illegalArity _) => 3

/-- R54's map, one number per row, sixteen hexadecimal digits, the column `x0` first. -/
def firstByteRows : List Nat :=
  [0x2032233322222222, 0x3022333222222222, 0x3131111311111111, 0x3131111311111111,
   0x2332200022222222, 0x0322000222222222, 0x3131111311111111, 0x3131111311111111,
   0x2302233322222222, 0x3322333222222222, 0x0101111011111111, 0x0101111011111111,
   0x2332233322222222, 0x3322333222222222, 0x3131111311111111, 0x3131111311111111]

/-- R54: all 256 first bytes under the default identifiers (D1, log 1), and the four counts. -/
def Obligations.FirstByteMapIsTheTable : Prop :=
  (∀ ir : Byte, firstByteKind defaultIds ir =
    firstByteRows.getD (ir.toNat / 16) 0 / 16 ^ (15 - ir.toNat % 16) % 16) ∧
  ((List.range 256).countP fun k => firstByteKind defaultIds (BitVec.ofNat 8 k) = 0) = 16 ∧
  ((List.range 256).countP fun k => firstByteKind defaultIds (BitVec.ofNat 8 k) = 1) = 104 ∧
  ((List.range 256).countP fun k => firstByteKind defaultIds (BitVec.ofNat 8 k) = 2) = 88 ∧
  ((List.range 256).countP fun k => firstByteKind defaultIds (BitVec.ofNat 8 k) = 3) = 48

/-- R46: the decoder answers a 4-tuple for every byte, the four bit fields of the byte read as numbers. -/
def Obligations.DecoderSplitsEveryByte : Prop :=
  ∀ ir : Byte,
    (splitByte ir).n.toNat = ir.toNat / 64 ∧
    ((splitByte ir).alu = true ↔ ir.toNat / 32 % 2 = 1) ∧
    ((splitByte ir).spc = true ↔ ir.toNat / 16 % 2 = 1) ∧
    (splitByte ir).opc.toNat = ir.toNat % 16

/-- R67: which operation a byte names, and when it names none; with `alu = 1` the bit `spc` plays no part. -/
def Obligations.DispatchSelectsByGroupAndIdentifier : Prop :=
  ∀ (ids : OpcodeIds) (ir : Byte), ids.Distinct →
    (∀ op : Op, dispatch ids ir = .ok op ↔
      (selectedGroup (splitByte ir) = op.group ∧ (splitByte ir).opc = ids.of op)) ∧
    (dispatch ids ir = .error (.unsupportedAluOp ir) ↔
      ((splitByte ir).alu = true ∧ ∀ op : Op, op.group = .alu → (splitByte ir).opc ≠ ids.of op)) ∧
    (dispatch ids ir = .error (.unknownOpcode ir) ↔
      ((splitByte ir).alu = false ∧
        ∀ op : Op, op.group = selectedGroup (splitByte ir) → (splitByte ir).opc ≠ ids.of op))

/-- R125: exactly one of "`op` valid" and the three error lines is true, and each says what dispatch and the arity
check (R67, R68) say of the byte. -/
def Obligations.DispatchLinesAreExclusive : Prop :=
  ∀ (ids : OpcodeIds) (ir : Byte),
    (∀ op : Op, (dispatchLines ids (splitByte ir)).op = some op ↔ identify ids ir = .ok op) ∧
    ((dispatchLines ids (splitByte ir)).errAluOp = true ↔ identify ids ir = .error (.unsupportedAluOp ir)) ∧
    ((dispatchLines ids (splitByte ir)).errOpcode = true ↔ identify ids ir = .error (.unknownOpcode ir)) ∧
    ((dispatchLines ids (splitByte ir)).errArity = true ↔ identify ids ir = .error (.illegalArity ir)) ∧
    ([(dispatchLines ids (splitByte ir)).op.isSome, (dispatchLines ids (splitByte ir)).errAluOp,
      (dispatchLines ids (splitByte ir)).errOpcode, (dispatchLines ids (splitByte ir)).errArity].count true = 1)

/-- R45, R48, R52: for every opcode map that R52 admits, every instruction with every operand byte, and whatever
follows it, decoding its words gives it back and leaves what follows. -/
def Obligations.DecodeOfEncodeIsTheInstruction : Prop :=
  ∀ (ids : OpcodeIds) (i : Instr) (rest : List Byte), ids.Distinct →
    decode ids (encode ids i ++ rest) = .ok (i, rest)

/-- R45, R56: the other direction. Bytes that decode to `i` are the words of `i`, but that an ALU first byte may have
bit 4 set (0xB0 for 0xA0 and so on; the spec's decision D11). -/
def Obligations.DecodedBytesAreTheEncoding : Prop :=
  ∀ (ids : OpcodeIds) (bytes rest : List Byte) (i : Instr), decode ids bytes = .ok (i, rest) →
    bytes = encode ids i ++ rest ∨
    (i.op.group = .alu ∧ ∃ ir ops, encode ids i = ir :: ops ∧ bytes = (ir ||| 0x10) :: ops ++ rest)

/-- R47: the length of an instruction is `1 + n`, told by its first byte alone, and 1, 2 and 3 occur. -/
def Obligations.LengthIsOnePlusOperandCount : Prop :=
  (∀ (ids : OpcodeIds) (ir : Byte) (tail rest : List Byte) (i : Instr), decode ids (ir :: tail) = .ok (i, rest) →
    (ir :: tail).length = (1 + (splitByte ir).n.toNat) + rest.length) ∧
  (∀ (ids : OpcodeIds) (i : Instr), (encode ids i).length = 1 + (splitByte (i.op.firstByte ids)).n.toNat) ∧
  (∀ (ids : OpcodeIds) (k : Nat), 1 ≤ k → k ≤ 3 → ∃ i : Instr, (encode ids i).length = k)

/-- R56 (the spec's decision D11): on the ALU path the sets-PC bit is not examined; a byte and the byte with bit 4
flipped decode alike. -/
def Obligations.AluPathIgnoresSetsPcBit : Prop :=
  ∀ (ids : OpcodeIds) (ir : Byte) (tail : List Byte) (r : Instr × List Byte), (splitByte ir).alu = true →
    (decode ids (ir :: tail) = .ok r ↔ decode ids ((ir ^^^ 0x10) :: tail) = .ok r)

/-! ## The step -/

/-- R78 (and R42: the fetches come first): when the bytes at `pc` decode to an instruction, well formed or not, a step
of a running machine is the meaning of that instruction. Nothing is added around it: each meaning moves `pc` itself (R74). -/
def Obligations.StepRunsTheDecodedInstruction : Prop :=
  (∀ (ids : OpcodeIds) (s : State) (i : Instr) (rest : List Byte), s.run = .running →
    decode ids s.codeBytes = .ok (i, rest) → stepWith ids s = exec i s) ∧
  (∀ s : State, step s = stepWith defaultIds s)

/-- R69, R139, R142 (the spec's decisions D4, D14): when the bytes at `pc` do not decode, a step of a running machine
takes the fault of dispatch or the arity check, or `MemRangeFault` with the address of the missing operand byte. -/
def Obligations.StepTakesTheFaultOfTheFetch : Prop :=
  ∀ (ids : OpcodeIds) (s : State), s.run = .running →
    (∀ f : DispatchFault, decode ids s.codeBytes = .error (.dispatch f) →
      stepWith ids s = .next (takeFault (Fault.ofDispatch f) s)) ∧
    (∀ k : Nat, decode ids s.codeBytes = .error (.truncated k) →
      s.pc.toNat + k = 256 ∧ stepWith ids s = .next (takeFault (.memRangeFault 256) s))

/-- R136: an ALU byte that is not `ADD`, `MUL` or `CMP` halts the machine with cause 1, whatever `n` and `spc` are,
and the host's exit code is 1. -/
def Obligations.UnsupportedAluByteHalts : Prop :=
  ∀ (ids : OpcodeIds) (s : State), s.run = .running → (splitByte (s.read s.pc)).alu = true →
    (splitByte (s.read s.pc)).opc ∉ [ids.add, ids.mul, ids.cmp] →
    ∃ t, stepWith ids s = .next t ∧ t = takeFault (.unsupportedAluOp (s.read s.pc)) s ∧ t.cause.code = 1 ∧
      hostExitCode t = some 1

/-- R137: a byte absent from the table its `spc` bit selects halts the machine with cause 2, `pc` kept, and a non-zero
exit signal. -/
def Obligations.UnknownOpcodeByteHalts : Prop :=
  ∀ (ids : OpcodeIds) (s : State), s.run = .running → (splitByte (s.read s.pc)).alu = false →
    (splitByte (s.read s.pc)).opc ∉
      (if (splitByte (s.read s.pc)).spc then [ids.call, ids.ret, ids.jmp, ids.jeq, ids.jne]
       else [ids.halt, ids.ldi, ids.prn, ids.push, ids.pop]) →
    ∃ t, stepWith ids s = .next t ∧ t = takeFault (.unknownOpcode (s.read s.pc)) s ∧ t.cause.code = 2 ∧
      t.pc = s.pc ∧ ∃ c, hostExitCode t = some c ∧ c ≠ 0

/-- R68, R138 (the spec's decision D10): an operation whose count field is not its arity halts the machine with
cause 3, on both paths. -/
def Obligations.WrongOperandCountHalts : Prop :=
  ∀ (ids : OpcodeIds) (s : State) (op : Op), s.run = .running → dispatch ids (s.read s.pc) = .ok op →
    (splitByte (s.read s.pc)).n.toNat ≠ op.arity →
    ∃ t, stepWith ids s = .next t ∧ t = takeFault (.illegalArity (s.read s.pc)) s ∧ t.cause.code = 3

/-- R76 (the spec's decision D24; the refusal's name is the model's, log 5): a halted machine has no next state. -/
def Obligations.HaltedMachineHasNoStep : Prop :=
  (∀ (ids : OpcodeIds) (s : State), s.run = .halted → stepWith ids s = .refused .halted) ∧
  (∀ (ids : OpcodeIds) (s t : State), s.run = .halted → stepWith ids s ≠ .next t)

/-- R164: a running machine always has a next state, and so has every meaning in every state. -/
def Obligations.RunningMachineAlwaysSteps : Prop :=
  (∀ (ids : OpcodeIds) (s : State), s.run = .running → ∃ t, stepWith ids s = .next t) ∧
  (∀ (i : Instr) (s : State), ∃ t, exec i s = .next t)

/-- R141, R24 (the spec's decision D13): taking a fault writes `RUN` and `CAUSE` and nothing else; the five codes. -/
def Obligations.TakingAFaultWritesRunAndCauseOnly : Prop :=
  (∀ (f : Fault) (s : State), (takeFault f s).run = .halted ∧ (takeFault f s).pc = s.pc ∧
    (takeFault f s).fl = s.fl ∧ (takeFault f s).out = s.out ∧ SameRegs s (takeFault f s) ∧
    SameMem s (takeFault f s)) ∧
  (∀ (s : State) (ir : Byte) (addr : Addr9),
    (takeFault (.unsupportedAluOp ir) s).cause.code = 1 ∧ (takeFault (.unknownOpcode ir) s).cause.code = 2 ∧
    (takeFault (.illegalArity ir) s).cause.code = 3 ∧ (takeFault (.memRangeFault addr) s).cause.code = 4 ∧
    (takeFault (.regRangeFault ir) s).cause.code = 5)

/-! ## The rules of the thirteen instructions: fetch, checks in order, effect and frame -/

/-- R81, whole, over every opcode map: the fetch, the checks in their order, the sum modulo 256, and the frame. -/
def Obligations.AddRule : Prop :=
  RunsAs .add (fun a b => .add a b) ∧
  (∀ (s : State) (a b : Byte), 7 < a.toNat → Faults (.add a b) s (.regRangeFault a)) ∧
  (∀ (s : State) (a : RegIndex) (b : Byte), 7 < b.toNat → Faults (.add a.byte b) s (.regRangeFault b)) ∧
  (∀ (s : State) (a b : RegIndex), 255 < s.pc.toNat + 3 →
    Faults (.add a.byte b.byte) s (.memRangeFault (BitVec.ofNat 9 (s.pc.toNat + 3)))) ∧
  (∀ (s : State) (a b : RegIndex), s.pc.toNat + 3 ≤ 255 →
    ∃ t, exec (.add a.byte b.byte) s = .next t ∧
      (t.reg a).toNat = ((s.reg a).toNat + (s.reg b).toNat) % 256 ∧ t.pc.toNat = s.pc.toNat + 3 ∧
      SameRegsBut a s t ∧ SameMem s t ∧ SameControl s t)

/-- R82, whole: as R81, with the low 8 bits of the product. -/
def Obligations.MulRule : Prop :=
  RunsAs .mul (fun a b => .mul a b) ∧
  (∀ (s : State) (a b : Byte), 7 < a.toNat → Faults (.mul a b) s (.regRangeFault a)) ∧
  (∀ (s : State) (a : RegIndex) (b : Byte), 7 < b.toNat → Faults (.mul a.byte b) s (.regRangeFault b)) ∧
  (∀ (s : State) (a b : RegIndex), 255 < s.pc.toNat + 3 →
    Faults (.mul a.byte b.byte) s (.memRangeFault (BitVec.ofNat 9 (s.pc.toNat + 3)))) ∧
  (∀ (s : State) (a b : RegIndex), s.pc.toNat + 3 ≤ 255 →
    ∃ t, exec (.mul a.byte b.byte) s = .next t ∧
      (t.reg a).toNat = ((s.reg a).toNat * (s.reg b).toNat) % 256 ∧ t.pc.toNat = s.pc.toNat + 3 ∧
      SameRegsBut a s t ∧ SameMem s t ∧ SameControl s t)

/-- R83, whole: all three flags from the unsigned comparison, no register. -/
def Obligations.CmpRule : Prop :=
  RunsAs .cmp (fun a b => .cmp a b) ∧
  (∀ (s : State) (a b : Byte), 7 < a.toNat → Faults (.cmp a b) s (.regRangeFault a)) ∧
  (∀ (s : State) (a : RegIndex) (b : Byte), 7 < b.toNat → Faults (.cmp a.byte b) s (.regRangeFault b)) ∧
  (∀ (s : State) (a b : RegIndex), 255 < s.pc.toNat + 3 →
    Faults (.cmp a.byte b.byte) s (.memRangeFault (BitVec.ofNat 9 (s.pc.toNat + 3)))) ∧
  (∀ (s : State) (a b : RegIndex), s.pc.toNat + 3 ≤ 255 →
    ∃ t, exec (.cmp a.byte b.byte) s = .next t ∧
      (t.fl.e = true ↔ (s.reg a).toNat = (s.reg b).toNat) ∧
      (t.fl.g = true ↔ (s.reg a).toNat > (s.reg b).toNat) ∧
      (t.fl.l = true ↔ (s.reg a).toNat < (s.reg b).toNat) ∧ t.pc.toNat = s.pc.toNat + 3 ∧
      SameRegs s t ∧ SameMem s t ∧ SameRun s t ∧ t.out = s.out)

/-- R90 (`pc` held: the spec's decision D12): `HALT` halts at any address, cause kept, nothing else. -/
def Obligations.HaltRule : Prop :=
  RunsAs .halt (fun _ _ => .halt) ∧
  (∀ s : State, ∃ t, exec .halt s = .next t ∧ t.run = .halted ∧ t.cause = s.cause ∧ t.pc = s.pc ∧ t.fl = s.fl ∧
    t.out = s.out ∧ SameRegs s t ∧ SameMem s t)

/-- R91, whole: the immediate in register `a`, `pc` by 3, and the frame. -/
def Obligations.LdiRule : Prop :=
  RunsAs .ldi (fun a imm => .ldi a imm) ∧
  (∀ (s : State) (a imm : Byte), 7 < a.toNat → Faults (.ldi a imm) s (.regRangeFault a)) ∧
  (∀ (s : State) (a : RegIndex) (imm : Byte), 255 < s.pc.toNat + 3 →
    Faults (.ldi a.byte imm) s (.memRangeFault (BitVec.ofNat 9 (s.pc.toNat + 3)))) ∧
  (∀ (s : State) (a : RegIndex) (imm : Byte), s.pc.toNat + 3 ≤ 255 →
    ∃ t, exec (.ldi a.byte imm) s = .next t ∧ t.reg a = imm ∧ t.pc.toNat = s.pc.toNat + 3 ∧
      SameRegsBut a s t ∧ SameMem s t ∧ SameControl s t)

/-- R92, whole: the value of register `a` is appended to `OUT`, `pc` by 2, and the frame. -/
def Obligations.PrnRule : Prop :=
  RunsAs .prn (fun a _ => .prn a) ∧
  (∀ (s : State) (a : Byte), 7 < a.toNat → Faults (.prn a) s (.regRangeFault a)) ∧
  (∀ (s : State) (a : RegIndex), 255 < s.pc.toNat + 2 →
    Faults (.prn a.byte) s (.memRangeFault (BitVec.ofNat 9 (s.pc.toNat + 2)))) ∧
  (∀ (s : State) (a : RegIndex), s.pc.toNat + 2 ≤ 255 →
    ∃ t, exec (.prn a.byte) s = .next t ∧ t.out = s.out ++ [s.reg a] ∧ t.pc.toNat = s.pc.toNat + 2 ∧
      t.fl = s.fl ∧ SameRun s t ∧ SameRegs s t ∧ SameMem s t)

/-- R99 (operand 7: the spec's decision D17; wrap: D6). The store goes to `s.decSp.sp`, the stack pointer after the
decrement, and stores `x[a]` as it is after the decrement. Memory is in canonical form (`StepKeepsTheInvariant`). -/
def Obligations.PushRule : Prop :=
  RunsAs .push (fun a _ => .push a) ∧
  (∀ (s : State) (a : Byte), 7 < a.toNat → Faults (.push a) s (.regRangeFault a)) ∧
  (∀ (s : State) (a : RegIndex), 255 < s.pc.toNat + 2 →
    Faults (.push a.byte) s (.memRangeFault (BitVec.ofNat 9 (s.pc.toNat + 2)))) ∧
  (∀ (s : State) (a : RegIndex), Memory.wf s.mem → s.pc.toNat + 2 ≤ 255 →
    ∃ t, exec (.push a.byte) s = .next t ∧ t.sp.toNat = (s.sp.toNat + 255) % 256 ∧ s.decSp.sp = t.sp ∧
      t.read s.decSp.sp = (if a = spIndex then t.sp else s.reg a) ∧ t.pc.toNat = s.pc.toNat + 2 ∧
      SameRegsBut spIndex s t ∧ SameMemBut s.decSp.sp s t ∧ SameControl s t)

/-- R100 (operand 7: the spec's decision D17; wrap: D6): the cell at the old stack pointer goes to register `a`, then
register 7 is incremented, also when `a` is 7; no byte of memory changes. -/
def Obligations.PopRule : Prop :=
  RunsAs .pop (fun a _ => .pop a) ∧
  (∀ (s : State) (a : Byte), 7 < a.toNat → Faults (.pop a) s (.regRangeFault a)) ∧
  (∀ (s : State) (a : RegIndex), 255 < s.pc.toNat + 2 →
    Faults (.pop a.byte) s (.memRangeFault (BitVec.ofNat 9 (s.pc.toNat + 2)))) ∧
  (∀ (s : State) (a : RegIndex), s.pc.toNat + 2 ≤ 255 →
    ∃ t, exec (.pop a.byte) s = .next t ∧ (a ≠ spIndex → t.reg a = s.read s.sp) ∧
      t.sp.toNat = ((if a = spIndex then s.read s.sp else s.sp).toNat + 1) % 256 ∧ t.pc.toNat = s.pc.toNat + 2 ∧
      (∀ r : RegIndex, r ≠ a → r ≠ spIndex → t.reg r = s.reg r) ∧ SameMem s t ∧ SameControl s t)

/-- R107 (operand 7: the spec's decision D17; return address past 255: D4): the return address `pc + 2` is stored at
the decremented stack pointer and `pc` takes `x[a]` as it is after the decrement. -/
def Obligations.CallRule : Prop :=
  RunsAs .call (fun a _ => .call a) ∧
  (∀ (s : State) (a : Byte), 7 < a.toNat → Faults (.call a) s (.regRangeFault a)) ∧
  (∀ (s : State) (a : RegIndex), 255 < s.pc.toNat + 2 →
    Faults (.call a.byte) s (.memRangeFault (BitVec.ofNat 9 (s.pc.toNat + 2)))) ∧
  (∀ (s : State) (a : RegIndex), Memory.wf s.mem → s.pc.toNat + 2 ≤ 255 →
    ∃ t, exec (.call a.byte) s = .next t ∧ t.sp.toNat = (s.sp.toNat + 255) % 256 ∧ s.decSp.sp = t.sp ∧
      (t.read s.decSp.sp).toNat = s.pc.toNat + 2 ∧ t.pc = (if a = spIndex then t.sp else s.reg a) ∧
      SameRegsBut spIndex s t ∧ SameMemBut s.decSp.sp s t ∧ SameControl s t)

/-- R108, whole: `pc` takes the cell at the stack pointer, then register 7 is incremented; no check, at any address. -/
def Obligations.RetRule : Prop :=
  RunsAs .ret (fun _ _ => .ret) ∧
  (∀ s : State, ∃ t, exec .ret s = .next t ∧ t.pc = s.read s.sp ∧ t.sp.toNat = (s.sp.toNat + 1) % 256 ∧
    SameRegsBut spIndex s t ∧ SameMem s t ∧ SameControl s t)

/-- R109, whole: `pc` takes `x[a]`, at every address where the operand byte exists; no advance is tested. -/
def Obligations.JmpRule : Prop :=
  RunsAs .jmp (fun a _ => .jmp a) ∧
  (∀ (s : State) (a : Byte), 7 < a.toNat → Faults (.jmp a) s (.regRangeFault a)) ∧
  (∀ (s : State) (a : RegIndex), ∃ t, exec (.jmp a.byte) s = .next t ∧ t.pc = s.reg a ∧
    SameRegs s t ∧ SameMem s t ∧ SameControl s t)

/-- R113 (index not tested when not taken: the spec's decision D25). -/
def Obligations.JeqRule : Prop :=
  RunsAs .jeq (fun a _ => .jeq a) ∧
  (∀ (s : State) (a : Byte), s.fl.e = true → 7 < a.toNat → Faults (.jeq a) s (.regRangeFault a)) ∧
  (∀ (s : State) (a : RegIndex), s.fl.e = true → ∃ t, exec (.jeq a.byte) s = .next t ∧ t.pc = s.reg a ∧
    SameRegs s t ∧ SameMem s t ∧ SameControl s t) ∧
  (∀ (s : State) (a : Byte), s.fl.e = false → 255 < s.pc.toNat + 2 →
    Faults (.jeq a) s (.memRangeFault (BitVec.ofNat 9 (s.pc.toNat + 2)))) ∧
  (∀ (s : State) (a : Byte), s.fl.e = false → s.pc.toNat + 2 ≤ 255 →
    ∃ t, exec (.jeq a) s = .next t ∧ t.pc.toNat = s.pc.toNat + 2 ∧ SameRegs s t ∧ SameMem s t ∧ SameControl s t)

/-- R114 (index not tested when not taken: the spec's decision D25). -/
def Obligations.JneRule : Prop :=
  RunsAs .jne (fun a _ => .jne a) ∧
  (∀ (s : State) (a : Byte), s.fl.e = false → 7 < a.toNat → Faults (.jne a) s (.regRangeFault a)) ∧
  (∀ (s : State) (a : RegIndex), s.fl.e = false → ∃ t, exec (.jne a.byte) s = .next t ∧ t.pc = s.reg a ∧
    SameRegs s t ∧ SameMem s t ∧ SameControl s t) ∧
  (∀ (s : State) (a : Byte), s.fl.e = true → 255 < s.pc.toNat + 2 →
    Faults (.jne a) s (.memRangeFault (BitVec.ofNat 9 (s.pc.toNat + 2)))) ∧
  (∀ (s : State) (a : Byte), s.fl.e = true → s.pc.toNat + 2 ≤ 255 →
    ∃ t, exec (.jne a) s = .next t ∧ t.pc.toNat = s.pc.toNat + 2 ∧ SameRegs s t ∧ SameMem s t ∧ SameControl s t)

/-! ## Rules about the whole machine -/

/-- R20: exactly one instruction writes `FL`, and it leaves exactly one bit set; exactly two read it, and they read
`FL.E` only: with the flags changed (for the jumps: changed in `G` and `L` alone) every other instruction does the
same and carries the changed flags along, and a completing `CMP` forgets them. -/
def Obligations.OnlyCmpWritesAndOnlyJumpsReadFlags : Prop :=
  (∀ (i : Instr) (s t : State), (∀ a b, i ≠ .cmp a b) → exec i s = .next t → t.fl = s.fl) ∧
  (∀ (s : State) (a b : RegIndex), s.pc.toNat + 3 ≤ 255 →
    ∃ t, exec (.cmp a.byte b.byte) s = .next t ∧ t.fl.OneSet) ∧
  (∀ (i : Instr) (s : State) (f : Flags), (∀ a b, i ≠ .cmp a b) →
    (((∃ a, i = .jeq a) ∨ (∃ a, i = .jne a)) → f.e = s.fl.e) →
    exec i (s.setFlags f) = mapNext (fun t => t.setFlags f) (exec i s)) ∧
  (∀ (s : State) (f : Flags) (a b : RegIndex), s.pc.toNat + 3 ≤ 255 →
    exec (.cmp a.byte b.byte) (s.setFlags f) = exec (.cmp a.byte b.byte) s) ∧
  (∀ (s : State) (a : RegIndex), s.pc.toNat + 2 ≤ 255 → s.reg a ≠ s.pc + 2 →
    (∀ (t u : State), exec (.jeq a.byte) (s.setFlags ⟨true, false, false⟩) = .next t →
      exec (.jeq a.byte) (s.setFlags ⟨false, false, false⟩) = .next u → t.pc ≠ u.pc) ∧
    (∀ (t u : State), exec (.jne a.byte) (s.setFlags ⟨true, false, false⟩) = .next t →
      exec (.jne a.byte) (s.setFlags ⟨false, false, false⟩) = .next u → t.pc ≠ u.pc))

/-- R22: `OUT` is empty at reset; only `PRN` appends to it, one value; nothing in the machine reads it, so a step
with other values already emitted is the same step. -/
def Obligations.OutputIsAppendedByPrnAndNeverRead : Prop :=
  State.reset.out = [] ∧
  (∀ (i : Instr) (s t : State), exec i s = .next t →
    t.out = s.out ∨ ∃ (a : RegIndex), i = .prn a.byte ∧ t.out = s.out ++ [s.reg a]) ∧
  (∀ (ids : OpcodeIds) (s : State) (o : List Byte),
    stepWith ids (s.withOut (o ++ s.out)) = mapNext (fun t => t.withOut (o ++ t.out)) (stepWith ids s))

/-- R23, R161: after reset the machine runs; a step that halts it either executed `HALT`, with cause 0 and `pc` at
the `HALT` byte, or took a fault, with a cause of 1 to 5 and `pc` at the faulting instruction, every other item kept;
halted is terminal, and only reset returns to running. The premise on the cause is part of `StepKeepsTheInvariant`. -/
def Obligations.RunEndsByHaltOrByFault : Prop :=
  State.reset.run = .running ∧
  (∀ (ids : OpcodeIds) (s t : State), s.run = .running → s.cause = .none → stepWith ids s = .next t →
    t.run = .halted →
    (t.EndedNormally ∧ fetchInstr ids s = .ok .halt ∧ t.cause.code = 0 ∧ t.pc = s.pc ∧ SameRegs s t ∧ SameMem s t ∧
      t.fl = s.fl ∧ t.out = s.out) ∨
    (t.EndedFatally ∧ (∃ f, t = takeFault f s) ∧ 1 ≤ t.cause.code.toNat ∧ t.cause.code.toNat ≤ 5 ∧ t.pc = s.pc)) ∧
  (∀ (ids : OpcodeIds) (s t : State), s.run = .halted → stepWith ids s ≠ .next t) ∧
  (∀ s : State, s.applyReset.run = .running)

/-- R31: `PUSH` and `CALL` write memory, at the new stack pointer, and no other instruction writes it; `POP` and `RET`
read data memory, at the old stack pointer, and no other instruction reads it; the sequencer reads only the instruction
byte and the bytes after it. -/
def Obligations.OnlyStackInstructionsTouchDataMemory : Prop :=
  (∀ (s : State) (a : RegIndex), Memory.wf s.mem → s.pc.toNat + 2 ≤ 255 →
    (∃ t, exec (.push a.byte) s = .next t ∧ t.read s.decSp.sp = s.decSp.reg a) ∧
    (∃ t, exec (.call a.byte) s = .next t ∧ t.read s.decSp.sp = s.pc + 2) ∧
    (∃ t, exec (.pop a.byte) s = .next t ∧ (a ≠ spIndex → t.reg a = s.read s.sp)) ∧
    (∃ t, exec .ret s = .next t ∧ t.pc = s.read s.sp)) ∧
  (∀ (i : Instr) (s t : State), exec i s = .next t → (∀ a, i ≠ .push a) → (∀ a, i ≠ .call a) → t.mem = s.mem) ∧
  (∀ (i : Instr) (s t : State), exec i s = .next t → SameMemBut s.decSp.sp s t) ∧
  (∀ (i : Instr) (s : State) (m : Memory), (∀ a, i ≠ .pop a) → i ≠ .ret →
    mapNext (fun t => t.withMem []) (exec i (s.withMem m)) = mapNext (fun t => t.withMem []) (exec i s)) ∧
  (∀ (i : Instr) (s : State) (m : Memory), ((∃ a, i = .pop a) ∨ i = .ret) →
    Memory.get s.sp.toNat m = s.read s.sp →
    mapNext (fun t => t.withMem []) (exec i (s.withMem m)) = mapNext (fun t => t.withMem []) (exec i s)) ∧
  (∀ (ids : OpcodeIds) (s u : State), u.pc = s.pc → u.codeBytes = s.codeBytes → fetchInstr ids u = fetchInstr ids s)

/-- R13 (a not-taken jump does not read its register: the spec's decision D25, log 8). An instruction changes no
register outside the table's "writes" column, and what it does depends on no register outside the "reads" column. With
a register changed that is in neither column, it does the same and carries the change along. With one changed that it
writes and does not read (the destination of `LDI`, and of `POP` other than 7), it completes in the very same state,
the change overwritten; where it faults instead, it takes the same fault. -/
def Obligations.InstructionsUseOnlyTheirRegisters : Prop :=
  (∀ (i : Instr) (s t : State) (r : RegIndex), exec i s = .next t → ¬ WritesReg i r → t.reg r = s.reg r) ∧
  (∀ (i : Instr) (s : State) (r : RegIndex) (v : Byte), ¬ WritesReg i r → ¬ ReadsReg i s.fl r →
    exec i (s.setReg r v) = mapNext (fun t => t.setReg r v) (exec i s)) ∧
  (∀ (i : Instr) (s t : State) (r : RegIndex) (v : Byte), WritesReg i r → ¬ ReadsReg i s.fl r →
    exec i s = .next t → (∀ f, t ≠ takeFault f s) → exec i (s.setReg r v) = .next t) ∧
  (∀ (i : Instr) (s : State) (r : RegIndex) (v : Byte) (f : Fault), WritesReg i r → ¬ ReadsReg i s.fl r →
    Faults i s f → Faults i (s.setReg r v) f)

/-- R14: the reset values of the eight registers, and reading one that nothing has written returns that value and is no
fault. -/
def Obligations.ResetRegisterValues : Prop :=
  ∀ r : RegIndex, State.reset.reg r = (if r = 7 then 244 else 0) ∧
    ∃ t, exec (.prn r.byte) State.reset = .next t ∧ t.run = .running ∧ t.out = [if r = 7 then 244 else 0]

/-- R155, R27 (the spec's decisions D7, D8, D13, D21): reset in any state gives every item its reset value and leaves
memory as it is. -/
def Obligations.ResetOfAnyStateKeepsMemoryOnly : Prop :=
  ∀ s : State, SameMem s s.applyReset ∧ (∀ r : RegIndex, s.applyReset.reg r = if r = 7 then 0xF4 else 0) ∧
    s.applyReset.pc = 0 ∧ s.applyReset.fl.Clear ∧ s.applyReset.run = .running ∧ s.applyReset.cause.code = 0 ∧
    s.applyReset.out = []

/-- R25, R158, R159 (the spec's decision D9): a launch with an image of 1 to 256 bytes starts in the reset state with
the image in memory from address 0 and the rest of memory as given; any other launch is refused. -/
def Obligations.LaunchHoldsTheImage : Prop :=
  (∀ (rest : Memory) (image : List Byte), Memory.wf rest → 1 ≤ image.length → image.length ≤ 256 →
    ∃ s, launch rest image = some s ∧ Memory.wf s.mem ∧ { s with mem := [] } = State.reset ∧
      ∀ addr : Byte, s.read addr = image.getD addr.toNat (Memory.get addr.toNat rest)) ∧
  (∀ (rest : Memory) (image : List Byte), image.length = 0 ∨ 256 < image.length → launch rest image = none)

/-- R25: memory is exactly its 256 cells. Any contents whatever are some canonical memory, and two canonical memories
that read alike at the 256 addresses are equal. -/
def Obligations.MemoryIsItsTwoHundredFiftySixCells : Prop :=
  (∀ contents : Byte → Byte, ∃ m, Memory.wf m ∧ ∀ addr : Byte, Memory.get addr.toNat m = contents addr) ∧
  (∀ m₁ m₂ : Memory, Memory.wf m₁ → Memory.wf m₂ →
    (∀ addr : Byte, Memory.get addr.toNat m₁ = Memory.get addr.toNat m₂) → m₁ = m₂)

/-- R101, R98: the stack has no bounds. A push at stack pointer 0 writes cell 255 and a pop at 255 leaves 0, neither
faults (the spec's decision D6), and after reset the first push writes cell 0xF3. -/
def Obligations.StackWrapsAtBothEnds : Prop :=
  (∀ (s : State) (a : RegIndex), Memory.wf s.mem → s.sp = 0 → a ≠ spIndex → s.pc.toNat ≤ 253 →
    ∃ t, exec (.push a.byte) s = .next t ∧ t.sp = 255 ∧ t.read 255 = s.reg a ∧ t.run = s.run) ∧
  (∀ (s : State) (a : RegIndex), s.sp = 255 → a ≠ spIndex → s.pc.toNat ≤ 253 →
    ∃ t, exec (.pop a.byte) s = .next t ∧ t.sp = 0 ∧ t.reg a = s.read 255 ∧ t.run = s.run) ∧
  (∀ (m : Memory) (a : RegIndex), Memory.wf m → a ≠ spIndex →
    ∃ t, exec (.push a.byte) (State.reset.withMem m) = .next t ∧ t.sp = 0xF3 ∧ t.read 0xF3 = 0)

/-! ## Invariants -/

/-- R86, R24 and the canonical form of memory: from every state that meets the invariant a step gives one that meets
it. That memory is held in a canonical form is the model's own choice. -/
def Obligations.StepKeepsTheInvariant : Prop :=
  ∀ (ids : OpcodeIds) (s t : State), s.Inv → stepWith ids s = .next t → t.Inv

/-- The reset state meets the invariant, and so does every launch (logs 2, 3). -/
def Obligations.ResetAndLaunchMeetTheInvariant : Prop :=
  State.reset.Inv ∧
  (∀ (rest : Memory) (image : List Byte) (s : State), Memory.wf rest → launch rest image = some s → s.Inv)

/-- R21, R86: once a comparison has set exactly one flag, every later state has exactly one set; the all-clear state
never comes back without a reset. -/
def Obligations.FlagsStayOneHotAfterACompare : Prop :=
  ∀ (ids : OpcodeIds) (s t : State), s.fl.OneSet → stepWith ids s = .next t → t.fl.OneSet

/-- R164, R77, R76: from a running state with any budget `n` of steps, the machine either takes all `n` of them or
halts on the way; it is never stuck and never faults outside its own state. -/
def Obligations.RunGoesOnUntilHalted : Prop :=
  ∀ (n : Nat) (s : State), s.run = .running →
    (∃ t, Host.Core.run Sys2Proof.core n s = .next t) ∨
    (∃ k t, k < n ∧ Host.Core.run Sys2Proof.core k s = .next t ∧ t.run = .halted ∧
      Host.Core.run Sys2Proof.core n s = .refused .halted)

/-! ## Two-instruction laws -/

/-- R41: every later fetch sees a store. `u` is any state after a completed `PUSH` or `CALL` in which the cell it wrote
still reads as it left it, the state `t` right after it among them: an instruction or operand byte that `u` fetches from
that cell is the value written. And the fetch of the next instruction is made of the cells as they then are. -/
def Obligations.StoreIsSeenByTheNextFetch : Prop :=
  (∀ (s t u : State) (a : RegIndex) (k : Nat), Memory.wf s.mem → s.pc.toNat + 2 ≤ 255 →
    exec (.push a.byte) s = .next t → u.read s.decSp.sp = t.read s.decSp.sp →
    k ≤ 2 → u.pc.toNat + k = s.decSp.sp.toNat → u.fetch k = .ok (s.decSp.reg a)) ∧
  (∀ (s t u : State) (a : RegIndex) (k : Nat), Memory.wf s.mem → s.pc.toNat + 2 ≤ 255 →
    exec (.call a.byte) s = .next t → u.read s.decSp.sp = t.read s.decSp.sp →
    k ≤ 2 → u.pc.toNat + k = s.decSp.sp.toNat → u.fetch k = .ok (s.pc + 2)) ∧
  (∀ (ids : OpcodeIds) (t : State) (v : Byte), t.fetch 0 = .ok v →
    fetchInstr ids t = decodeWith ids Fault.ofDispatch t.fetch v)

/-- R103: a `PUSH` and then a `POP` move the value and restore the stack pointer, with the three cases where a
register is 7: the first, the second, and both. (The spec's condition that the push does not overwrite the `POP` is about fetching it; here the `POP`
is executed.) -/
def Obligations.PushThenPopMovesTheValue : Prop :=
  ∀ (s : State) (r q : RegIndex), Memory.wf s.mem → s.pc.toNat + 4 ≤ 255 →
    ∃ t u, exec (.push r.byte) s = .next t ∧ exec (.pop q.byte) t = .next u ∧
      (r ≠ spIndex → q ≠ spIndex → u.reg q = s.reg r ∧ u.sp = s.sp) ∧
      (r = spIndex → q ≠ spIndex → u.reg q = s.sp - 1 ∧ u.sp = s.sp) ∧
      (r ≠ spIndex → q = spIndex → u.sp = s.reg r + 1) ∧
      (r = spIndex → q = spIndex → u.sp = s.sp) ∧
      u.pc.toNat = s.pc.toNat + 4

/-- R115: a `RET` resumes after the `CALL` and restores the stack pointer, whatever ran in between, if the stack
pointer and the saved cell are then as the `CALL` left them. -/
def Obligations.RetResumesAfterTheCall : Prop :=
  ∀ (s t u : State) (a : RegIndex), Memory.wf s.mem → s.pc.toNat + 2 ≤ 255 → exec (.call a.byte) s = .next t →
    u.sp = t.sp → u.read t.sp = t.read t.sp →
    ∃ v, exec .ret u = .next v ∧ v.pc.toNat = s.pc.toNat + 2 ∧ v.sp = s.sp

/-! ## The block as hardware -/

/-- R120 to R134: the block, driven by the control table and its sub-blocks, computes the same step as the
instruction rules, for every opcode map and every state. -/
def Obligations.BlockComputesTheStep : Prop :=
  ∀ (ids : OpcodeIds) (s : State),
    stepWith ids s =
      match blockStep ids s with
      | some r => .next r.state
      | none => .refused .halted

/-- R122, R123, R131: the writes at the memory port are all that happens to memory, and the emitted values all that
happens to `OUT`. -/
def Obligations.PortEventsAccountForMemoryAndOutput : Prop :=
  ∀ (ids : OpcodeIds) (s : State) (r : BlockResult), blockStep ids s = some r →
    r.state.mem = applyWrites s.mem r.events ∧ r.state.out = s.out ++ emittedValues r.events

/-- R42, R43: the accesses of one instruction, in order and number; a step that faults writes and emits nothing and
reads at most three bytes. The ordering inside a faulting step is the model's reading of R75 (log 12). -/
def Obligations.AccessesOfAnInstructionInOrder : Prop :=
  (∀ (ids : OpcodeIds) (s : State) (r : BlockResult) (i : Instr), blockStep ids s = some r →
    fetchInstr ids s = .ok i → s.cause = .none → (∀ f, r.state ≠ takeFault f s) → r.events = expectedEvents i s) ∧
  (∀ (ids : OpcodeIds) (s : State) (r : BlockResult) (f : Fault), blockStep ids s = some r →
    s.cause = .none → r.state = takeFault f s →
    countWrites r.events = 0 ∧ emittedValues r.events = [] ∧ 1 ≤ countReads r.events ∧ countReads r.events ≤ 3)

/-- R121, R155, R76 (ports: the spec's decision D15): while `rst` is high the state holds its reset values; a running
block takes the step; a halted block is frozen. -/
def Obligations.ClockedBlockResetsStepsOrHolds : Prop :=
  (∀ (ids : OpcodeIds) (s : State), clockBlock ids true s = s.applyReset) ∧
  (∀ (ids : OpcodeIds) (s t : State), stepWith ids s = .next t → clockBlock ids false s = t) ∧
  (∀ (ids : OpcodeIds) (s : State), s.run = .halted → clockBlock ids false s = s)

/-- R162 (the 1 for the last four causes is the spec's suggestion, D18, log 13): no exit code while running, 0 after
the normal end, 1 after a fatal one, and never 2. -/
def Obligations.ExitCodeSaysHowTheRunEnded : Prop :=
  ∀ s : State, (s.run = .running → hostExitCode s = none) ∧ (s.EndedNormally → hostExitCode s = some 0) ∧
    (s.EndedFatally → hostExitCode s = some 1)
end

