-- ==== Sys2Proof/Laws/Decode.lean ====
section
/-! SUPPORT. Small lemmas about the instruction byte, dispatch and the two decoders that share `decodeWith`. -/

namespace Sys2Proof

/-- The fields of a byte laid out from fields are those fields (R45). -/
@[simp] theorem splitByte_joinByte (f : Fields) : splitByte (joinByte f) = f := by
  obtain ⟨n, alu, spc, opc⟩ := f
  revert n alu spc opc
  decide

/-- Bit 4 set or cleared changes no field but `spc`. -/
theorem splitByte_toggle_spc (ir : Byte) :
    splitByte (ir ^^^ 0x10) = { splitByte ir with spc := !(splitByte ir).spc } := by
  revert ir
  decide

theorem arity_le_two (op : Op) : op.arity ≤ 2 := by cases op <;> decide

/-- The operation an ALU identifier names is of the ALU group and has that identifier. -/
theorem aluOp?_some {ids : OpcodeIds} {opc : Nibble} {op : Op} (h : aluOp? ids opc = some op) :
    op.group = .alu ∧ ids.of op = opc := by
  unfold aluOp? at h
  split_ifs at h <;> cases h <;> exact ⟨rfl, by simp [OpcodeIds.of, *]⟩

theorem tableA?_some {ids : OpcodeIds} {opc : Nibble} {op : Op} (h : tableA? ids opc = some op) :
    op.group = .tableA ∧ ids.of op = opc := by
  unfold tableA? at h
  split_ifs at h <;> cases h <;> exact ⟨rfl, by simp [OpcodeIds.of, *]⟩

theorem tableB?_some {ids : OpcodeIds} {opc : Nibble} {op : Op} (h : tableB? ids opc = some op) :
    op.group = .tableB ∧ ids.of op = opc := by
  unfold tableB? at h
  split_ifs at h <;> cases h <;> exact ⟨rfl, by simp [OpcodeIds.of, *]⟩

/-- A first byte that names an operation has the operation's arity in its count field (R68). -/
theorem identify_ok {ids : OpcodeIds} {ir : Byte} {op : Op} (h : identify ids ir = .ok op) :
    dispatch ids ir = .ok op ∧ (splitByte ir).n.toNat = op.arity := by
  unfold identify at h
  split at h
  · cases h
  · split at h
    · cases h
      exact ⟨by assumption, by assumption⟩
    · cases h

/-- `decodeWith` of a byte that names no operation. -/
theorem decodeWith_reject {ε : Type} {ids : OpcodeIds} {reject : DispatchFault → ε} {operand : Nat → Except ε Byte}
    {ir : Byte} {e : DispatchFault} (h : identify ids ir = .error e) :
    decodeWith ids reject operand ir = .error (reject e) := by
  simp [decodeWith, h]

/-- `decodeWith` of a byte that names an operation, by the operation's arity. -/
theorem decodeWith_arity0 {ε : Type} {ids : OpcodeIds} {reject : DispatchFault → ε} {operand : Nat → Except ε Byte}
    {ir : Byte} {op : Op} (h : identify ids ir = .ok op) (ha : op.arity = 0) :
    decodeWith ids reject operand ir = .ok (op.build 0 0) := by
  simp [decodeWith, h, ha]

theorem decodeWith_arity1 {ε : Type} {ids : OpcodeIds} {reject : DispatchFault → ε} {operand : Nat → Except ε Byte}
    {ir a : Byte} {op : Op} (h : identify ids ir = .ok op) (ha : op.arity = 1) (h1 : operand 1 = .ok a) :
    decodeWith ids reject operand ir = .ok (op.build a 0) := by
  simp [decodeWith, h, ha, h1]

theorem decodeWith_arity2 {ε : Type} {ids : OpcodeIds} {reject : DispatchFault → ε} {operand : Nat → Except ε Byte}
    {ir a b : Byte} {op : Op} (h : identify ids ir = .ok op) (ha : op.arity = 2) (h1 : operand 1 = .ok a)
    (h2 : operand 2 = .ok b) : decodeWith ids reject operand ir = .ok (op.build a b) := by
  simp [decodeWith, h, ha, h1, h2]

/-- Under an opcode map that R52 admits, an ALU identifier finds its operation. -/
theorem aluOp?_of {ids : OpcodeIds} (h : ids.Distinct) {op : Op} (hg : op.group = .alu) :
    aluOp? ids (ids.of op) = some op := by
  have ha := h.1
  simp at ha
  cases op <;> simp [Op.group] at hg <;> simp [aluOp?, OpcodeIds.of] <;> grind

theorem tableA?_of {ids : OpcodeIds} (h : ids.Distinct) {op : Op} (hg : op.group = .tableA) :
    tableA? ids (ids.of op) = some op := by
  have ha := h.2.1
  simp at ha
  cases op <;> simp [Op.group] at hg <;> simp [tableA?, OpcodeIds.of] <;> grind

theorem tableB?_of {ids : OpcodeIds} (h : ids.Distinct) {op : Op} (hg : op.group = .tableB) :
    tableB? ids (ids.of op) = some op := by
  have ha := h.2.2
  simp at ha
  cases op <;> simp [Op.group] at hg <;> simp [tableB?, OpcodeIds.of] <;> grind

/-- An identifier finds no ALU operation exactly when it is the identifier of none. -/
theorem aluOp?_none {ids : OpcodeIds} {opc : Nibble} :
    aluOp? ids opc = none ↔ ∀ op : Op, op.group = .alu → opc ≠ ids.of op := by
  constructor
  · intro h op hg
    cases op <;> simp [Op.group] at hg <;> (unfold aluOp? at h; split_ifs at h; simpa [OpcodeIds.of])
  · intro h
    have := h .add rfl
    have := h .mul rfl
    have := h .cmp rfl
    simp_all [aluOp?, OpcodeIds.of]

theorem tableA?_none {ids : OpcodeIds} {opc : Nibble} :
    tableA? ids opc = none ↔ ∀ op : Op, op.group = .tableA → opc ≠ ids.of op := by
  constructor
  · intro h op hg
    cases op <;> simp [Op.group] at hg <;> (unfold tableA? at h; split_ifs at h; simpa [OpcodeIds.of])
  · intro h
    have := h .halt rfl
    have := h .ldi rfl
    have := h .prn rfl
    have := h .push rfl
    have := h .pop rfl
    simp_all [tableA?, OpcodeIds.of]

theorem tableB?_none {ids : OpcodeIds} {opc : Nibble} :
    tableB? ids opc = none ↔ ∀ op : Op, op.group = .tableB → opc ≠ ids.of op := by
  constructor
  · intro h op hg
    cases op <;> simp [Op.group] at hg <;> (unfold tableB? at h; split_ifs at h; simpa [OpcodeIds.of])
  · intro h
    have := h .call rfl
    have := h .ret rfl
    have := h .jmp rfl
    have := h .jeq rfl
    have := h .jne rfl
    simp_all [tableB?, OpcodeIds.of]

end Sys2Proof
end

