-- ==== Sys2Proof/Laws/State.lean ====
section
/-! SUPPORT. One lemma per field per update of the state, so that no later proof unfolds a record update; the reads
of a register and of a cell after each update. -/

namespace Sys2Proof.Machine

@[simp] theorem State.write_mem (s : State) (addr v : Byte) : (s.write addr v).mem = Memory.put addr.toNat v s.mem := rfl
@[simp] theorem State.write_x (s : State) (addr v : Byte) : (s.write addr v).x = s.x := rfl
@[simp] theorem State.write_pc (s : State) (addr v : Byte) : (s.write addr v).pc = s.pc := rfl
@[simp] theorem State.write_fl (s : State) (addr v : Byte) : (s.write addr v).fl = s.fl := rfl
@[simp] theorem State.write_run (s : State) (addr v : Byte) : (s.write addr v).run = s.run := rfl
@[simp] theorem State.write_cause (s : State) (addr v : Byte) : (s.write addr v).cause = s.cause := rfl
@[simp] theorem State.write_out (s : State) (addr v : Byte) : (s.write addr v).out = s.out := rfl
@[simp] theorem State.write_reg (s : State) (addr v : Byte) (q : RegIndex) : (s.write addr v).reg q = s.reg q := rfl
@[simp] theorem State.write_sp (s : State) (addr v : Byte) : (s.write addr v).sp = s.sp := rfl

@[simp] theorem State.setReg_mem (s : State) (r : RegIndex) (v : Byte) : (s.setReg r v).mem = s.mem := rfl
@[simp] theorem State.setReg_x (s : State) (r : RegIndex) (v : Byte) : (s.setReg r v).x = s.x.set r.val v := rfl
@[simp] theorem State.setReg_pc (s : State) (r : RegIndex) (v : Byte) : (s.setReg r v).pc = s.pc := rfl
@[simp] theorem State.setReg_fl (s : State) (r : RegIndex) (v : Byte) : (s.setReg r v).fl = s.fl := rfl
@[simp] theorem State.setReg_run (s : State) (r : RegIndex) (v : Byte) : (s.setReg r v).run = s.run := rfl
@[simp] theorem State.setReg_cause (s : State) (r : RegIndex) (v : Byte) : (s.setReg r v).cause = s.cause := rfl
@[simp] theorem State.setReg_out (s : State) (r : RegIndex) (v : Byte) : (s.setReg r v).out = s.out := rfl
@[simp] theorem State.setReg_read (s : State) (r : RegIndex) (v : Byte) (addr : Byte) : (s.setReg r v).read addr = s.read addr := rfl

@[simp] theorem State.setPc_mem (s : State) (p : Byte) : (s.setPc p).mem = s.mem := rfl
@[simp] theorem State.setPc_x (s : State) (p : Byte) : (s.setPc p).x = s.x := rfl
@[simp] theorem State.setPc_pc (s : State) (p : Byte) : (s.setPc p).pc = p := rfl
@[simp] theorem State.setPc_fl (s : State) (p : Byte) : (s.setPc p).fl = s.fl := rfl
@[simp] theorem State.setPc_run (s : State) (p : Byte) : (s.setPc p).run = s.run := rfl
@[simp] theorem State.setPc_cause (s : State) (p : Byte) : (s.setPc p).cause = s.cause := rfl
@[simp] theorem State.setPc_out (s : State) (p : Byte) : (s.setPc p).out = s.out := rfl
@[simp] theorem State.setPc_reg (s : State) (p : Byte) (q : RegIndex) : (s.setPc p).reg q = s.reg q := rfl
@[simp] theorem State.setPc_sp (s : State) (p : Byte) : (s.setPc p).sp = s.sp := rfl
@[simp] theorem State.setPc_read (s : State) (p : Byte) (addr : Byte) : (s.setPc p).read addr = s.read addr := rfl

@[simp] theorem State.setFlags_mem (s : State) (f : Flags) : (s.setFlags f).mem = s.mem := rfl
@[simp] theorem State.setFlags_x (s : State) (f : Flags) : (s.setFlags f).x = s.x := rfl
@[simp] theorem State.setFlags_pc (s : State) (f : Flags) : (s.setFlags f).pc = s.pc := rfl
@[simp] theorem State.setFlags_fl (s : State) (f : Flags) : (s.setFlags f).fl = f := rfl
@[simp] theorem State.setFlags_run (s : State) (f : Flags) : (s.setFlags f).run = s.run := rfl
@[simp] theorem State.setFlags_cause (s : State) (f : Flags) : (s.setFlags f).cause = s.cause := rfl
@[simp] theorem State.setFlags_out (s : State) (f : Flags) : (s.setFlags f).out = s.out := rfl
@[simp] theorem State.setFlags_reg (s : State) (f : Flags) (q : RegIndex) : (s.setFlags f).reg q = s.reg q := rfl
@[simp] theorem State.setFlags_sp (s : State) (f : Flags) : (s.setFlags f).sp = s.sp := rfl
@[simp] theorem State.setFlags_read (s : State) (f : Flags) (addr : Byte) : (s.setFlags f).read addr = s.read addr := rfl

@[simp] theorem State.emit_mem (s : State) (v : Byte) : (s.emit v).mem = s.mem := rfl
@[simp] theorem State.emit_x (s : State) (v : Byte) : (s.emit v).x = s.x := rfl
@[simp] theorem State.emit_pc (s : State) (v : Byte) : (s.emit v).pc = s.pc := rfl
@[simp] theorem State.emit_fl (s : State) (v : Byte) : (s.emit v).fl = s.fl := rfl
@[simp] theorem State.emit_run (s : State) (v : Byte) : (s.emit v).run = s.run := rfl
@[simp] theorem State.emit_cause (s : State) (v : Byte) : (s.emit v).cause = s.cause := rfl
@[simp] theorem State.emit_out (s : State) (v : Byte) : (s.emit v).out = s.out ++ [v] := rfl
@[simp] theorem State.emit_reg (s : State) (v : Byte) (q : RegIndex) : (s.emit v).reg q = s.reg q := rfl
@[simp] theorem State.emit_sp (s : State) (v : Byte) : (s.emit v).sp = s.sp := rfl
@[simp] theorem State.emit_read (s : State) (v : Byte) (addr : Byte) : (s.emit v).read addr = s.read addr := rfl

@[simp] theorem State.halt_mem (s : State) : s.halt.mem = s.mem := rfl
@[simp] theorem State.halt_x (s : State) : s.halt.x = s.x := rfl
@[simp] theorem State.halt_pc (s : State) : s.halt.pc = s.pc := rfl
@[simp] theorem State.halt_fl (s : State) : s.halt.fl = s.fl := rfl
@[simp] theorem State.halt_run (s : State) : s.halt.run = .halted := rfl
@[simp] theorem State.halt_cause (s : State) : s.halt.cause = s.cause := rfl
@[simp] theorem State.halt_out (s : State) : s.halt.out = s.out := rfl
@[simp] theorem State.halt_reg (s : State) (q : RegIndex) : s.halt.reg q = s.reg q := rfl
@[simp] theorem State.halt_sp (s : State) : s.halt.sp = s.sp := rfl
@[simp] theorem State.halt_read (s : State) (addr : Byte) : s.halt.read addr = s.read addr := rfl

@[simp] theorem State.decSp_mem (s : State) : s.decSp.mem = s.mem := rfl
@[simp] theorem State.decSp_pc (s : State) : s.decSp.pc = s.pc := rfl
@[simp] theorem State.decSp_fl (s : State) : s.decSp.fl = s.fl := rfl
@[simp] theorem State.decSp_run (s : State) : s.decSp.run = s.run := rfl
@[simp] theorem State.decSp_cause (s : State) : s.decSp.cause = s.cause := rfl
@[simp] theorem State.decSp_out (s : State) : s.decSp.out = s.out := rfl
@[simp] theorem State.decSp_read (s : State) (addr : Byte) : s.decSp.read addr = s.read addr := rfl

@[simp] theorem State.incSp_mem (s : State) : s.incSp.mem = s.mem := rfl
@[simp] theorem State.incSp_pc (s : State) : s.incSp.pc = s.pc := rfl
@[simp] theorem State.incSp_fl (s : State) : s.incSp.fl = s.fl := rfl
@[simp] theorem State.incSp_run (s : State) : s.incSp.run = s.run := rfl
@[simp] theorem State.incSp_cause (s : State) : s.incSp.cause = s.cause := rfl
@[simp] theorem State.incSp_out (s : State) : s.incSp.out = s.out := rfl
@[simp] theorem State.incSp_read (s : State) (addr : Byte) : s.incSp.read addr = s.read addr := rfl

@[simp] theorem takeFault_mem (f : Fault) (s : State) : (takeFault f s).mem = s.mem := rfl
@[simp] theorem takeFault_x (f : Fault) (s : State) : (takeFault f s).x = s.x := rfl
@[simp] theorem takeFault_pc (f : Fault) (s : State) : (takeFault f s).pc = s.pc := rfl
@[simp] theorem takeFault_fl (f : Fault) (s : State) : (takeFault f s).fl = s.fl := rfl
@[simp] theorem takeFault_run (f : Fault) (s : State) : (takeFault f s).run = .halted := rfl
@[simp] theorem takeFault_cause (f : Fault) (s : State) : (takeFault f s).cause = f.cause := rfl
@[simp] theorem takeFault_out (f : Fault) (s : State) : (takeFault f s).out = s.out := rfl
@[simp] theorem takeFault_reg (f : Fault) (s : State) (q : RegIndex) : (takeFault f s).reg q = s.reg q := rfl
@[simp] theorem takeFault_read (f : Fault) (s : State) (addr : Byte) : (takeFault f s).read addr = s.read addr := rfl
@[simp] theorem takeFault_sp (f : Fault) (s : State) : (takeFault f s).sp = s.sp := rfl

@[simp] theorem State.applyReset_mem (s : State) : s.applyReset.mem = s.mem := rfl
@[simp] theorem State.applyReset_x (s : State) : s.applyReset.x = State.reset.x := rfl
@[simp] theorem State.applyReset_pc (s : State) : s.applyReset.pc = State.reset.pc := rfl
@[simp] theorem State.applyReset_fl (s : State) : s.applyReset.fl = State.reset.fl := rfl
@[simp] theorem State.applyReset_run (s : State) : s.applyReset.run = State.reset.run := rfl
@[simp] theorem State.applyReset_cause (s : State) : s.applyReset.cause = State.reset.cause := rfl
@[simp] theorem State.applyReset_out (s : State) : s.applyReset.out = State.reset.out := rfl

/-! ## Registers -/

@[simp] theorem State.setReg_reg_same (s : State) (r : RegIndex) (v : Byte) : (s.setReg r v).reg r = v := by
  simp [State.reg, State.setReg]

theorem State.setReg_reg_ne (s : State) {r q : RegIndex} (v : Byte) (h : q ≠ r) : (s.setReg r v).reg q = s.reg q := by
  have hv : r.val ≠ q.val := fun e => h (Fin.ext e.symm)
  simp [State.reg, State.setReg, hv]

theorem State.setReg_reg (s : State) (r q : RegIndex) (v : Byte) :
    (s.setReg r v).reg q = if q = r then v else s.reg q := by
  by_cases h : q = r
  · subst h; simp
  · simp [h, State.setReg_reg_ne]

@[simp] theorem State.decSp_sp (s : State) : s.decSp.sp = s.sp - 1#8 := by simp [State.decSp, State.sp]

@[simp] theorem State.incSp_sp (s : State) : s.incSp.sp = s.sp + 1#8 := by simp [State.incSp, State.sp]

theorem State.decSp_reg (s : State) (q : RegIndex) : s.decSp.reg q = if q = spIndex then s.sp - 1#8 else s.reg q := by
  simp [State.decSp, State.setReg_reg]

theorem State.incSp_reg (s : State) (q : RegIndex) : s.incSp.reg q = if q = spIndex then s.sp + 1#8 else s.reg q := by
  simp [State.incSp, State.setReg_reg]

/-- Two states with the same registers, read one by one, hold the same register file. -/
theorem State.x_ext {s t : State} (h : ∀ q : RegIndex, t.reg q = s.reg q) : t.x = s.x :=
  Vector.ext fun i hi => h ⟨i, hi⟩

/-! ## The push -/

@[simp] theorem State.push_pc (s : State) (g : State → Byte) : (s.push g).pc = s.pc := rfl
@[simp] theorem State.push_fl (s : State) (g : State → Byte) : (s.push g).fl = s.fl := rfl
@[simp] theorem State.push_run (s : State) (g : State → Byte) : (s.push g).run = s.run := rfl
@[simp] theorem State.push_cause (s : State) (g : State → Byte) : (s.push g).cause = s.cause := rfl
@[simp] theorem State.push_out (s : State) (g : State → Byte) : (s.push g).out = s.out := rfl
@[simp] theorem State.push_reg (s : State) (g : State → Byte) (q : RegIndex) : (s.push g).reg q = s.decSp.reg q := rfl
@[simp] theorem State.push_sp (s : State) (g : State → Byte) : (s.push g).sp = s.sp - 1#8 := by
  simp [State.push]
theorem State.push_mem (s : State) (g : State → Byte) :
    (s.push g).mem = Memory.put (s.sp - 1#8).toNat (g s.decSp) s.mem := by
  simp [State.push]

end Sys2Proof.Machine
end

