-- ==== Sys2Proof/Laws/Memory.lean ====
section
/-! SUPPORT. Memory: a read after a write, and the canonical form, which every memory operation keeps. -/

namespace Sys2Proof.Machine

/-- An address below every listed one reads as an unlisted cell. -/
theorem Memory.get_below {m : Memory} {a : Nat} (h : ∀ c ∈ m, a < c.1) : Memory.get a m = Config.unlistedByte := by
  induction m with
  | nil => rfl
  | cons c m ih =>
    have hc := h c (List.mem_cons_self ..)
    have hne : c.1 ≠ a := by omega
    simpa [Memory.get, hne] using ih fun d hd => h d (List.mem_cons_of_mem _ hd)

theorem Memory.get_put_same (m : Memory) (a : Nat) (v : Byte) (h : Memory.wf m) :
    Memory.get a (Memory.put a v m) = v := by
  induction m with
  | nil => by_cases hv : v = Config.unlistedByte <;> simp [Memory.put, Memory.get, hv]
  | cons c m ih =>
    obtain ⟨k, w⟩ := c
    obtain ⟨hp, hm⟩ := h
    have hk : ∀ d ∈ m, k < d.1 := (List.pairwise_cons.mp hp).1
    have ih := ih ⟨(List.pairwise_cons.mp hp).2, fun d hd => hm d (List.mem_cons_of_mem _ hd)⟩
    have absent : ∀ b ≤ k, Memory.get b m = Config.unlistedByte := fun b hb =>
      Memory.get_below fun d hd => Nat.lt_of_le_of_lt hb (hk d hd)
    unfold Memory.put
    split
    · split
      · rename_i hlt hv
        have : k ≠ a := by omega
        simp [Memory.get, this, absent a (by omega), hv]
      · simp [Memory.get]
    · split
      · split
        · rename_i he hv
          simp [absent a (by omega), hv]
        · simp [Memory.get]
      · rename_i h1 h2
        have : k ≠ a := fun e => h2 e.symm
        simp [Memory.get, this, ih]

theorem Memory.get_put_ne (m : Memory) {a b : Nat} (v : Byte) (h : b ≠ a) :
    Memory.get b (Memory.put a v m) = Memory.get b m := by
  have h' : a ≠ b := fun e => h e.symm
  induction m with
  | nil => by_cases hv : v = Config.unlistedByte <;> simp [Memory.put, Memory.get, hv, h']
  | cons c m ih =>
    obtain ⟨k, w⟩ := c
    unfold Memory.put
    split
    · split <;> simp [Memory.get, h']
    · split
      · rename_i he
        split <;> simp [Memory.get, h', ← he]
      · simp [Memory.get, ih]

/-- Every cell listed after a write was listed before it, or is the written one. -/
theorem Memory.mem_put {m : Memory} {a : Nat} {v : Byte} {c : Host.Cell} (h : c ∈ Memory.put a v m) :
    c ∈ m ∨ (c = (a, v) ∧ v ≠ Config.unlistedByte) := by
  induction m with
  | nil =>
    by_cases hv : v = Config.unlistedByte
    · simp [Memory.put, hv] at h
    · simp [Memory.put, hv] at h
      exact .inr ⟨h, hv⟩
  | cons d m ih =>
    obtain ⟨k, w⟩ := d
    unfold Memory.put at h
    split at h
    · split at h
      · exact .inl h
      · rename_i hv
        rcases List.mem_cons.mp h with h | h
        · exact .inr ⟨h, hv⟩
        · exact .inl h
    · split at h
      · split at h
        · exact .inl (List.mem_cons_of_mem _ h)
        · rename_i hv
          rcases List.mem_cons.mp h with h | h
          · exact .inr ⟨h, hv⟩
          · exact .inl (List.mem_cons_of_mem _ h)
      · rcases List.mem_cons.mp h with h | h
        · exact .inl (h ▸ List.mem_cons_self ..)
        · exact (ih h).imp_left (List.mem_cons_of_mem _)

/-- A write inside the 256 cells keeps the canonical form. -/
theorem Memory.put_wf {m : Memory} {a : Nat} (v : Byte) (ha : a < Config.memSize) (h : Memory.wf m) :
    Memory.wf (Memory.put a v m) := by
  refine ⟨?_, fun c hc => ?_⟩
  · obtain ⟨hp, -⟩ := h
    induction m with
    | nil => by_cases hv : v = Config.unlistedByte <;> simp [Memory.put, hv]
    | cons d m ih =>
      obtain ⟨k, w⟩ := d
      have hk := (List.pairwise_cons.mp hp).1
      have hp' := (List.pairwise_cons.mp hp).2
      unfold Memory.put
      split
      · split
        · exact hp
        · rename_i hlt _
          refine List.pairwise_cons.mpr ⟨fun c hc => ?_, hp⟩
          rcases List.mem_cons.mp hc with rfl | hc
          · exact hlt
          · exact Nat.lt_trans hlt (hk c hc)
      · split
        · split
          · exact hp'
          · rename_i he _
            exact List.pairwise_cons.mpr ⟨fun c hc => he ▸ hk c hc, hp'⟩
        · rename_i h1 h2
          refine List.pairwise_cons.mpr ⟨fun c hc => ?_, ih hp'⟩
          rcases Memory.mem_put hc with hc | ⟨rfl, -⟩
          · exact hk c hc
          · show k < a
            omega
  · rcases Memory.mem_put hc with hc | ⟨rfl, hv⟩
    · exact h.2 c hc
    · exact ⟨ha, hv⟩

theorem byte_lt_memSize (addr : Byte) : addr.toNat < Config.memSize := addr.isLt

/-- `write` keeps the canonical form. -/
theorem State.write_wf {s : State} (addr v : Byte) (h : Memory.wf s.mem) : Memory.wf (s.write addr v).mem :=
  Memory.put_wf v (byte_lt_memSize addr) h

theorem State.write_read_same {s : State} (addr v : Byte) (h : Memory.wf s.mem) : (s.write addr v).read addr = v :=
  Memory.get_put_same s.mem addr.toNat v h

theorem State.write_read_ne (s : State) {addr other : Byte} (v : Byte) (h : other ≠ addr) :
    (s.write addr v).read other = s.read other :=
  Memory.get_put_ne s.mem v fun e => h (BitVec.eq_of_toNat_eq e)

/-- Placing bytes keeps the canonical form. -/
theorem placeBytes_wf (bs : List Byte) (base : Nat) {m : Memory} (h : Memory.wf m) :
    Memory.wf (placeBytes base bs m) := by
  induction bs generalizing base m with
  | nil => exact h
  | cons b bs ih =>
    unfold placeBytes
    split
    · exact ih _ (Memory.put_wf b ‹_› h)
    · exact ih _ h

theorem reset_mem_wf : Memory.wf State.reset.mem := by decide

/-- A push keeps the canonical form. -/
theorem State.push_wf {s : State} (g : State → Byte) (h : Memory.wf s.mem) : Memory.wf (s.push g).mem := by
  rw [State.push_mem]
  exact Memory.put_wf _ (byte_lt_memSize _) h

theorem State.push_read_same {s : State} (g : State → Byte) (h : Memory.wf s.mem) :
    (s.push g).read (s.sp - 1#8) = g s.decSp := by
  simpa [State.push] using State.write_read_same (s := s.decSp) (s.sp - 1#8) (g s.decSp) h

theorem State.push_read_ne (s : State) (g : State → Byte) {other : Byte} (h : other ≠ s.sp - 1#8) :
    (s.push g).read other = s.read other := by
  simpa [State.push] using State.write_read_ne s.decSp (g s.decSp) h

/-- What every cell reads after bytes are placed: the placed byte where there is one, else what it read before. -/
theorem get_placeBytes (bs : List Byte) (base : Nat) {m : Memory} (hb : base + bs.length ≤ Config.memSize)
    (hw : Memory.wf m) (a : Nat) :
    Memory.get a (placeBytes base bs m) =
      if base ≤ a then bs.getD (a - base) (Memory.get a m) else Memory.get a m := by
  induction bs generalizing base m with
  | nil => simp [placeBytes]
  | cons b bs ih =>
    simp only [List.length_cons] at hb
    have hlt : base < Config.memSize := by omega
    simp only [placeBytes, hlt, if_true]
    rw [ih (base + 1) (by omega) (Memory.put_wf b hlt hw)]
    by_cases h0 : a = base
    · subst h0
      simp [Memory.get_put_same _ _ _ hw]
    · rw [Memory.get_put_ne _ _ h0]
      by_cases h1 : base ≤ a
      · have h2 : base + 1 ≤ a := by omega
        have h3 : a - base = (a - (base + 1)) + 1 := by omega
        simp [h1, h2, h3]
      · have h2 : ¬ base + 1 ≤ a := by omega
        simp [h1, h2]

end Sys2Proof.Machine
end

