-- ==== Sys2Proof/Laws/Ops.lean ====
section
/-! SUPPORT. One lemma for everything each shared operation can do: the index test, the 9-bit sum, the operand fetch,
the end of an instruction, and the shared shapes of the meanings. -/

namespace Sys2Proof.Machine

/-! ## The index test -/

@[simp] theorem byte_toNat (r : RegIndex) : r.byte.toNat = r.val := by
  simp only [RegIndex.byte, BitVec.toNat_ofNat]
  omega

@[simp] theorem checkReg_byte (r : RegIndex) : checkReg r.byte = .ok r := by
  have : r.byte.toNat < 8 := by simp
  simp [checkReg]

theorem checkReg_error {v : Byte} (h : 7 < v.toNat) : checkReg v = .error (.regRangeFault v) := by
  have : ¬ v.toNat < 8 := by omega
  simp [checkReg, this]

/-- An operand byte of 7 or less is the byte of a register. -/
theorem exists_index {v : Byte} (h : v.toNat ≤ 7) : ∃ r : RegIndex, v = r.byte :=
  ⟨⟨v.toNat, by omega⟩, BitVec.eq_of_toNat_eq (by simp)⟩

/-- The index test answers the register whose byte it was given, or the fault of a byte above 7. -/
theorem checkReg_cases (v : Byte) :
    (∃ r : RegIndex, v = r.byte ∧ checkReg v = .ok r) ∨ (7 < v.toNat ∧ checkReg v = .error (.regRangeFault v)) := by
  rcases Nat.lt_or_ge 7 v.toNat with h | h
  · exact .inr ⟨h, checkReg_error h⟩
  · obtain ⟨r, rfl⟩ := exists_index h
    exact .inl ⟨r, rfl, checkReg_byte r⟩

/-! ## The 9-bit sum -/

theorem pcSum_toNat (pc : Byte) {k : Nat} (hk : k ≤ 3) : (zext9 pc + BitVec.ofNat 9 k).toNat = pc.toNat + k := by
  have := pc.isLt
  simp only [zext9, BitVec.toNat_add, BitVec.toNat_setWidth, BitVec.toNat_ofNat]
  omega

theorem pcPlus_ok {pc : Byte} {k : Nat} (hk : k ≤ 3) (h : pc.toNat + k ≤ 255) :
    pcPlus pc k = .ok (pc + BitVec.ofNat 8 k) := by
  have ht := pcSum_toNat pc hk
  have hn : ¬ 255 < (zext9 pc + BitVec.ofNat 9 k).toNat := by omega
  have he : low8 (zext9 pc + BitVec.ofNat 9 k) = pc + BitVec.ofNat 8 k := by
    apply BitVec.eq_of_toNat_eq
    simp only [low8, BitVec.toNat_setWidth, ht, BitVec.toNat_add, BitVec.toNat_ofNat]
    omega
  simp only [pcPlus]
  rw [if_neg hn, he]

theorem pcPlus_error {pc : Byte} {k : Nat} (hk : k ≤ 3) (h : 255 < pc.toNat + k) :
    pcPlus pc k = .error (.memRangeFault (BitVec.ofNat 9 (pc.toNat + k))) := by
  have ht := pcSum_toNat pc hk
  have hn : 255 < (zext9 pc + BitVec.ofNat 9 k).toNat := by omega
  have he : zext9 pc + BitVec.ofNat 9 k = BitVec.ofNat 9 (pc.toNat + k) := by
    apply BitVec.eq_of_toNat_eq
    rw [ht, BitVec.toNat_ofNat]
    have := pc.isLt
    omega
  simp only [pcPlus]
  rw [if_pos hn, he]

theorem pcNext_toNat {pc : Byte} {k : Nat} (h : pc.toNat + k ≤ 255) : (pc + BitVec.ofNat 8 k).toNat = pc.toNat + k := by
  simp only [BitVec.toNat_add, BitVec.toNat_ofNat]
  omega

theorem advance_ok {s : State} {n : Nat} (hn : n ≤ 2) (h : s.pc.toNat + (1 + n) ≤ 255) :
    advance s n = .ok (s.pc + BitVec.ofNat 8 (1 + n)) := pcPlus_ok (by omega) h

theorem advance_error {s : State} {n : Nat} (hn : n ≤ 2) (h : 255 < s.pc.toNat + (1 + n)) :
    advance s n = .error (.memRangeFault (BitVec.ofNat 9 (s.pc.toNat + (1 + n)))) := pcPlus_error (by omega) h

/-- The advance answers the exact sum, or the fault of a sum above 255. -/
theorem advance_cases (s : State) {n : Nat} (hn : n ≤ 2) :
    (s.pc.toNat + (1 + n) ≤ 255 ∧ advance s n = .ok (s.pc + BitVec.ofNat 8 (1 + n))) ∨
    (255 < s.pc.toNat + (1 + n) ∧
      advance s n = .error (.memRangeFault (BitVec.ofNat 9 (s.pc.toNat + (1 + n))))) := by
  rcases Nat.lt_or_ge 255 (s.pc.toNat + (1 + n)) with h | h
  · exact .inr ⟨h, advance_error hn h⟩
  · exact .inl ⟨h, advance_ok hn h⟩

theorem fetch_ok {s : State} {k : Nat} (hk : k ≤ 3) (h : s.pc.toNat + k ≤ 255) :
    s.fetch k = .ok (s.read (s.pc + BitVec.ofNat 8 k)) := by
  simp [State.fetch, pcPlus_ok hk h]

theorem fetch_error {s : State} {k : Nat} (hk : k ≤ 3) (h : 255 < s.pc.toNat + k) :
    s.fetch k = .error (.memRangeFault (BitVec.ofNat 9 (s.pc.toNat + k))) := by
  simp [State.fetch, pcPlus_error hk h]

/-! ## The end of an instruction -/

@[simp] theorem conclude_ok (s t : State) : conclude s (.ok t) = .next t := rfl
@[simp] theorem conclude_error (s : State) (f : Fault) : conclude s (.error f) = .next (takeFault f s) := rfl

/-- An instruction ends in the state of its effects or with a fault taken in the state before it. -/
theorem conclude_next {s t : State} {r : Except Fault State} (h : conclude s r = .next t) :
    r = .ok t ∨ ∃ f, r = .error f ∧ t = takeFault f s := by
  cases r with
  | ok u =>
    have : u = t := by simpa using h
    exact .inl (by rw [this])
  | error f =>
    have : takeFault f s = t := by simpa using h
    exact .inr ⟨f, rfl, this.symm⟩

/-- The shared checks of the ALU group, in the order of R142. -/
theorem withRegPair_cases (a b : Byte) (s : State) (effect : RegIndex → RegIndex → Byte → State) :
    (7 < a.toNat ∧ withRegPair a b s effect = .error (.regRangeFault a)) ∨
    (∃ ra : RegIndex, a = ra.byte ∧ 7 < b.toNat ∧ withRegPair a b s effect = .error (.regRangeFault b)) ∨
    (∃ ra rb : RegIndex, a = ra.byte ∧ b = rb.byte ∧ 255 < s.pc.toNat + 3 ∧
      withRegPair a b s effect = .error (.memRangeFault (BitVec.ofNat 9 (s.pc.toNat + 3)))) ∨
    (∃ ra rb : RegIndex, a = ra.byte ∧ b = rb.byte ∧ s.pc.toNat + 3 ≤ 255 ∧
      withRegPair a b s effect = .ok (effect ra rb (s.pc + 3))) := by
  rcases checkReg_cases a with ⟨ra, rfl, ha⟩ | ⟨h, ha⟩
  · rcases checkReg_cases b with ⟨rb, rfl, hb⟩ | ⟨h, hb⟩
    · rcases advance_cases s (n := 2) (by omega) with ⟨h, hn⟩ | ⟨h, hn⟩
      · exact .inr (.inr (.inr ⟨ra, rb, rfl, rfl, h, by simp [withRegPair, hn, bind, Except.bind, pure, Except.pure]⟩))
      · exact .inr (.inr (.inl ⟨ra, rb, rfl, rfl, h, by simp [withRegPair, hn, bind, Except.bind]⟩))
    · exact .inr (.inl ⟨ra, rfl, h, by simp [withRegPair, hb, bind, Except.bind]⟩)
  · exact .inl ⟨h, by simp [withRegPair, ha, bind, Except.bind]⟩

/-- A jump tests its index and sets `pc`, nothing else. -/
theorem jumpTo_cases (a : Byte) (s : State) :
    (7 < a.toNat ∧ jumpTo a s = .error (.regRangeFault a)) ∨
    (∃ ra : RegIndex, a = ra.byte ∧ jumpTo a s = .ok (s.setPc (s.reg ra))) := by
  rcases checkReg_cases a with ⟨ra, rfl, ha⟩ | ⟨h, ha⟩
  · exact .inr ⟨ra, rfl, by simp [jumpTo, bind, Except.bind, pure, Except.pure]⟩
  · exact .inl ⟨h, by simp [jumpTo, ha, bind, Except.bind]⟩

@[simp] theorem branch_taken (a : Byte) (s : State) : branch true a s = jumpTo a s := rfl

/-- A conditional jump that is not taken advances by 2 or faults on that sum; it never tests its index. -/
theorem branch_not_taken_cases (a : Byte) (s : State) :
    (s.pc.toNat + 2 ≤ 255 ∧ branch false a s = .ok (s.setPc (s.pc + 2))) ∨
    (255 < s.pc.toNat + 2 ∧ branch false a s = .error (.memRangeFault (BitVec.ofNat 9 (s.pc.toNat + 2)))) := by
  rcases advance_cases s (n := 1) (by omega) with ⟨h, hn⟩ | ⟨h, hn⟩
  · exact .inl ⟨h, by simp [branch, hn, bind, Except.bind, pure, Except.pure]⟩
  · exact .inr ⟨h, by simp [branch, hn, bind, Except.bind]⟩

/-! ## What a step can do -/

/-- A step of a halted machine is refused; a step of a running one runs the fetched instruction or takes the fault of
the fetch. -/
theorem stepWith_cases (ids : OpcodeIds) (s : State) :
    (s.run = .halted ∧ stepWith ids s = .refused .halted) ∨
    (s.run = .running ∧ ∃ i, fetchInstr ids s = .ok i ∧ stepWith ids s = exec i s) ∨
    (s.run = .running ∧ ∃ f, fetchInstr ids s = .error f ∧ stepWith ids s = .next (takeFault f s)) := by
  cases hr : s.run with
  | halted => exact .inl ⟨rfl, by simp [stepWith, hr]⟩
  | running =>
    cases hf : fetchInstr ids s with
    | ok i => exact .inr (.inl ⟨rfl, i, rfl, by simp [stepWith, hr, hf]⟩)
    | error f => exact .inr (.inr ⟨rfl, f, rfl, by simp [stepWith, hr, hf]⟩)

/-! ## The comparison flags -/

/-- The flags of a comparison, each by its own test (R83). -/
theorem compareFlags_iff (u v : Byte) :
    ((compareFlags u v).e = true ↔ u.toNat = v.toNat) ∧ ((compareFlags u v).g = true ↔ v.toNat < u.toNat) ∧
    ((compareFlags u v).l = true ↔ u.toNat < v.toNat) := by
  simp only [compareFlags, ← BitVec.toNat_inj]
  split_ifs <;> simp <;> omega

/-- A comparison leaves exactly one flag set (R86). -/
theorem compareFlags_oneSet (u v : Byte) : (compareFlags u v).OneSet := by
  simp only [compareFlags, Flags.OneSet]
  split_ifs <;> simp

/-! ## The instruction fetch -/

theorem fetch_one (s : State) :
    s.fetch 1 = if s.pc.toNat + 1 ≤ 255 then .ok (s.read (s.pc + 1)) else .error (.memRangeFault 256) := by
  have := s.pc.isLt
  split
  · exact fetch_ok (by omega) ‹_›
  · have e : s.pc.toNat + 1 = 256 := by omega
    rw [fetch_error (by omega) (by omega), e]
    rfl

theorem fetch_two (s : State) (h : s.pc.toNat + 1 ≤ 255) :
    s.fetch 2 = if s.pc.toNat + 2 ≤ 255 then .ok (s.read (s.pc + 2)) else .error (.memRangeFault 256) := by
  split
  · exact fetch_ok (by omega) ‹_›
  · have e : s.pc.toNat + 2 = 256 := by omega
    rw [fetch_error (by omega) (by omega), e]
    rfl

/-- The instruction fetch in closed form: the first missing operand byte is always the one at 256 (R69). -/
theorem fetchInstr_eq (ids : OpcodeIds) (s : State) :
    fetchInstr ids s =
      match identify ids (s.read s.pc) with
      | .error e => .error (Fault.ofDispatch e)
      | .ok op =>
        if s.pc.toNat + op.arity ≤ 255 then .ok (op.build (s.read (s.pc + 1)) (s.read (s.pc + 2)))
        else .error (.memRangeFault 256) := by
  have := s.pc.isLt
  simp only [fetchInstr, decodeWith]
  cases identify ids (s.read s.pc) with
  | error e => rfl
  | ok op =>
    by_cases h1 : s.pc.toNat + 1 ≤ 255
    · by_cases h2 : s.pc.toNat + 2 ≤ 255 <;>
        cases op <;> simp [Op.arity, Op.build, fetch_one, fetch_two s h1, h1, h2, -Nat.reduceLeDiff] <;> omega
    · have h2 : ¬ s.pc.toNat + 2 ≤ 255 := by omega
      cases op <;> simp [Op.arity, Op.build, fetch_one, h1, h2] <;> omega

end Sys2Proof.Machine
end

