-- ==== Sys2Proof/Laws/Block.lean ====
section
/-! SUPPORT. What the sub-blocks compute, in the words of the instruction rules, and the bookkeeping of port events. -/

namespace Sys2Proof.Machine

/-- Some bit of 7 to 3 is set exactly in the operand bytes above 7 (R130). -/
theorem idxErr_eq (v : Byte) : idxErr v = decide (7 < v.toNat) := by
  revert v
  decide

@[simp] theorem muxRead_byte (x : Vector Byte 8) (r : RegIndex) : muxRead x r.byte = some x[r.val] := by
  simp [muxRead]

@[simp] theorem muxWrite_byte (x : Vector Byte 8) (r : RegIndex) (v : Byte) :
    muxWrite x r.byte v = x.set r.val v := by
  simp [muxWrite]

/-- The stack unit counts modulo 256 (R101, R128). -/
theorem stackUnit_push (sp : Byte) : stackUnit .push sp = ⟨sp - 1, sp - 1⟩ := by
  revert sp
  decide

theorem stackUnit_pop (sp : Byte) : stackUnit .pop sp = ⟨sp + 1, sp⟩ := by
  revert sp
  decide

/-- The packed flags of the ALU are the flags of the comparison (R83, R126). -/
theorem aluUnit_cmp_flags (u v : Byte) : (aluUnit .cmp u v).flNext.map Flags.unpack = some (compareFlags u v) := by
  simp only [aluUnit, compareFlags, Option.map_some, ← BitVec.toNat_inj]
  split_ifs <;> rfl

/-- Packing and unpacking the flags (R19, R127). -/
theorem unpack_pack (f : Flags) : Flags.unpack f.pack = f := by
  obtain ⟨e, g, l⟩ := f
  revert e g l
  decide

theorem applyWrites_append (m : Memory) (es fs : List PortEvent) :
    applyWrites m (es ++ fs) = applyWrites (applyWrites m es) fs := by
  induction es generalizing m with
  | nil => rfl
  | cons e es ih => cases e <;> simp [applyWrites, ih]

theorem emittedValues_append (es fs : List PortEvent) :
    emittedValues (es ++ fs) = emittedValues es ++ emittedValues fs := by
  induction es with
  | nil => rfl
  | cons e es ih => cases e <;> simp [emittedValues, ih]

/-- The operand reads are reads: they write and emit nothing, and there are at most `n` of them. -/
theorem operandReads_events (n : Nat) (s : State) (m : Memory) :
    applyWrites m (operandReads n s) = m ∧ emittedValues (operandReads n s) = [] ∧
    countWrites (operandReads n s) = 0 ∧ countReads (operandReads n s) ≤ n := by
  have aux : ∀ (l : List Nat) (g : Nat → Byte),
      applyWrites m (l.map fun k => .memRead (g k)) = m ∧ emittedValues (l.map fun k => .memRead (g k)) = [] ∧
      countWrites (l.map fun k => .memRead (g k)) = 0 ∧ countReads (l.map fun k => .memRead (g k)) = l.length := by
    intro l g
    induction l with
    | nil => exact ⟨rfl, rfl, rfl, rfl⟩
    | cons k l ih => simpa [applyWrites, emittedValues, countWrites, countReads] using ih
  obtain ⟨h1, h2, h3, h4⟩ := aux ((List.range' 1 n).filter fun k => s.pc.toNat + k ≤ 255)
    fun k => BitVec.ofNat 8 (s.pc.toNat + k)
  refine ⟨h1, h2, h3, ?_⟩
  rw [operandReads, h4]
  exact (List.length_filter_le _ _).trans (by simp)

end Sys2Proof.Machine
end

