-- ==== Sys2Proof/Laws/Exec.lean ====
section
/-! SUPPORT. What an instruction can do, said once: it takes a fault in the state before it, or it completes in the
state its rule gives. Invariants and frames follow from these two cases, without unfolding a meaning again. -/

namespace Sys2Proof.Machine

/-- `i` passes its checks in `s` and its effects give `t`. -/
def Completes (i : Instr) (s t : State) : Prop :=
  match i with
  | .add a b => ∃ ra rb : RegIndex, a = ra.byte ∧ b = rb.byte ∧ s.pc.toNat + 3 ≤ 255 ∧
      t = (s.setReg ra (s.reg ra + s.reg rb)).setPc (s.pc + 3)
  | .mul a b => ∃ ra rb : RegIndex, a = ra.byte ∧ b = rb.byte ∧ s.pc.toNat + 3 ≤ 255 ∧
      t = (s.setReg ra (s.reg ra * s.reg rb)).setPc (s.pc + 3)
  | .cmp a b => ∃ ra rb : RegIndex, a = ra.byte ∧ b = rb.byte ∧ s.pc.toNat + 3 ≤ 255 ∧
      t = (s.setFlags (compareFlags (s.reg ra) (s.reg rb))).setPc (s.pc + 3)
  | .halt => t = s.halt
  | .ldi a imm => ∃ ra : RegIndex, a = ra.byte ∧ s.pc.toNat + 3 ≤ 255 ∧ t = (s.setReg ra imm).setPc (s.pc + 3)
  | .prn a => ∃ ra : RegIndex, a = ra.byte ∧ s.pc.toNat + 2 ≤ 255 ∧ t = (s.emit (s.reg ra)).setPc (s.pc + 2)
  | .push a => ∃ ra : RegIndex, a = ra.byte ∧ s.pc.toNat + 2 ≤ 255 ∧
      t = (s.push fun u => u.reg ra).setPc (s.pc + 2)
  | .pop a => ∃ ra : RegIndex, a = ra.byte ∧ s.pc.toNat + 2 ≤ 255 ∧
      t = ((s.setReg ra (s.read s.sp)).incSp).setPc (s.pc + 2)
  | .call a => ∃ ra : RegIndex, a = ra.byte ∧ s.pc.toNat + 2 ≤ 255 ∧
      t = (s.push fun _ => s.pc + 2).setPc (s.decSp.reg ra)
  | .ret => t = (s.setPc (s.read s.sp)).incSp
  | .jmp a => ∃ ra : RegIndex, a = ra.byte ∧ t = s.setPc (s.reg ra)
  | .jeq a => (s.fl.e = true ∧ ∃ ra : RegIndex, a = ra.byte ∧ t = s.setPc (s.reg ra)) ∨
      (s.fl.e = false ∧ s.pc.toNat + 2 ≤ 255 ∧ t = s.setPc (s.pc + 2))
  | .jne a => (s.fl.e = false ∧ ∃ ra : RegIndex, a = ra.byte ∧ t = s.setPc (s.reg ra)) ∨
      (s.fl.e = true ∧ s.pc.toNat + 2 ≤ 255 ∧ t = s.setPc (s.pc + 2))

/-- The checks of the instructions with one register operand: the index, then the advance by `1 + n`. -/
theorem regThenAdvance_cases (a : Byte) (s : State) {n : Nat} (hn : n ≤ 2) (effect : RegIndex → Byte → State) :
    (∃ f, (do let ra ← checkReg a; let next ← advance s n; return effect ra next) = Except.error f) ∨
    (∃ ra : RegIndex, a = ra.byte ∧ s.pc.toNat + (1 + n) ≤ 255 ∧
      (do let ra ← checkReg a; let next ← advance s n; return effect ra next) =
        Except.ok (effect ra (s.pc + BitVec.ofNat 8 (1 + n)))) := by
  rcases checkReg_cases a with ⟨ra, rfl, ha⟩ | ⟨-, ha⟩
  · rcases advance_cases s hn with ⟨h, hx⟩ | ⟨-, hx⟩
    · exact .inr ⟨ra, rfl, h, by simp [hx, bind, Except.bind, pure, Except.pure]⟩
    · exact .inl ⟨.memRangeFault (BitVec.ofNat 9 (s.pc.toNat + (1 + n))), by simp [hx, bind, Except.bind]⟩
  · exact .inl ⟨.regRangeFault a, by simp [ha, bind, Except.bind]⟩

theorem branch_cases (taken : Bool) (a : Byte) (s : State) :
    (∃ f, branch taken a s = .error f) ∨
    (taken = true ∧ ∃ ra : RegIndex, a = ra.byte ∧ branch taken a s = .ok (s.setPc (s.reg ra))) ∨
    (taken = false ∧ s.pc.toNat + 2 ≤ 255 ∧ branch taken a s = .ok (s.setPc (s.pc + 2))) := by
  cases taken with
  | true =>
    rcases jumpTo_cases a s with ⟨-, h⟩ | ⟨ra, ha, h⟩
    · exact .inl ⟨_, h⟩
    · exact .inr (.inl ⟨rfl, ra, ha, h⟩)
  | false =>
    rcases branch_not_taken_cases a s with ⟨hp, h⟩ | ⟨-, h⟩
    · exact .inr (.inr ⟨rfl, hp, h⟩)
    · exact .inl ⟨_, h⟩

/-- Every meaning ends in one of two ways. -/
theorem exec_cases (i : Instr) (s : State) :
    (∃ f, exec i s = .next (takeFault f s)) ∨ (∃ t, Completes i s t ∧ exec i s = .next t) := by
  cases i with
  | add a b =>
    rcases withRegPair_cases a b s (fun ra rb p => (s.setReg ra (s.reg ra + s.reg rb)).setPc p) with
      ⟨-, h⟩ | ⟨_, -, -, h⟩ | ⟨_, _, -, -, -, h⟩ | ⟨ra, rb, ha, hb, hp, h⟩
    · exact .inl ⟨_, by rw [exec, execAdd, h, conclude_error]⟩
    · exact .inl ⟨_, by rw [exec, execAdd, h, conclude_error]⟩
    · exact .inl ⟨_, by rw [exec, execAdd, h, conclude_error]⟩
    · exact .inr ⟨_, ⟨ra, rb, ha, hb, hp, rfl⟩, by rw [exec, execAdd, h, conclude_ok]⟩
  | mul a b =>
    rcases withRegPair_cases a b s (fun ra rb p => (s.setReg ra (s.reg ra * s.reg rb)).setPc p) with
      ⟨-, h⟩ | ⟨_, -, -, h⟩ | ⟨_, _, -, -, -, h⟩ | ⟨ra, rb, ha, hb, hp, h⟩
    · exact .inl ⟨_, by rw [exec, execMul, h, conclude_error]⟩
    · exact .inl ⟨_, by rw [exec, execMul, h, conclude_error]⟩
    · exact .inl ⟨_, by rw [exec, execMul, h, conclude_error]⟩
    · exact .inr ⟨_, ⟨ra, rb, ha, hb, hp, rfl⟩, by rw [exec, execMul, h, conclude_ok]⟩
  | cmp a b =>
    rcases withRegPair_cases a b s (fun ra rb p => (s.setFlags (compareFlags (s.reg ra) (s.reg rb))).setPc p) with
      ⟨-, h⟩ | ⟨_, -, -, h⟩ | ⟨_, _, -, -, -, h⟩ | ⟨ra, rb, ha, hb, hp, h⟩
    · exact .inl ⟨_, by rw [exec, execCmp, h, conclude_error]⟩
    · exact .inl ⟨_, by rw [exec, execCmp, h, conclude_error]⟩
    · exact .inl ⟨_, by rw [exec, execCmp, h, conclude_error]⟩
    · exact .inr ⟨_, ⟨ra, rb, ha, hb, hp, rfl⟩, by rw [exec, execCmp, h, conclude_ok]⟩
  | halt => exact .inr ⟨_, rfl, rfl⟩
  | ldi a imm =>
    rcases regThenAdvance_cases a s (n := 2) (by omega) (fun ra p => (s.setReg ra imm).setPc p) with
      ⟨f, h⟩ | ⟨ra, ha, hp, h⟩
    · exact .inl ⟨f, by rw [exec, execLdi, h, conclude_error]⟩
    · exact .inr ⟨_, ⟨ra, ha, hp, rfl⟩, by rw [exec, execLdi, h, conclude_ok]; rfl⟩
  | prn a =>
    rcases regThenAdvance_cases a s (n := 1) (by omega) (fun ra p => (s.emit (s.reg ra)).setPc p) with
      ⟨f, h⟩ | ⟨ra, ha, hp, h⟩
    · exact .inl ⟨f, by rw [exec, execPrn, h, conclude_error]⟩
    · exact .inr ⟨_, ⟨ra, ha, hp, rfl⟩, by rw [exec, execPrn, h, conclude_ok]; rfl⟩
  | push a =>
    rcases regThenAdvance_cases a s (n := 1) (by omega) (fun ra p => (s.push fun u => u.reg ra).setPc p) with
      ⟨f, h⟩ | ⟨ra, ha, hp, h⟩
    · exact .inl ⟨f, by rw [exec, execPush, h, conclude_error]⟩
    · exact .inr ⟨_, ⟨ra, ha, hp, rfl⟩, by rw [exec, execPush, h, conclude_ok]; rfl⟩
  | pop a =>
    rcases regThenAdvance_cases a s (n := 1) (by omega)
      (fun ra p => ((s.setReg ra (s.read s.sp)).incSp).setPc p) with ⟨f, h⟩ | ⟨ra, ha, hp, h⟩
    · exact .inl ⟨f, by rw [exec, execPop, h, conclude_error]⟩
    · exact .inr ⟨_, ⟨ra, ha, hp, rfl⟩, by rw [exec, execPop, h, conclude_ok]; rfl⟩
  | call a =>
    rcases regThenAdvance_cases a s (n := 1) (by omega)
      (fun ra p => (s.push fun _ => p).setPc (s.decSp.reg ra)) with ⟨f, h⟩ | ⟨ra, ha, hp, h⟩
    · exact .inl ⟨f, by rw [exec, execCall, h, conclude_error]⟩
    · exact .inr ⟨_, ⟨ra, ha, hp, rfl⟩, by rw [exec, execCall, h, conclude_ok]; rfl⟩
  | ret => exact .inr ⟨_, rfl, rfl⟩
  | jmp a =>
    rcases jumpTo_cases a s with ⟨-, h⟩ | ⟨ra, ha, h⟩
    · exact .inl ⟨_, by rw [exec, execJmp, h, conclude_error]⟩
    · exact .inr ⟨_, ⟨ra, ha, rfl⟩, by rw [exec, execJmp, h, conclude_ok]⟩
  | jeq a =>
    rcases branch_cases (takenJeq s.fl) a s with ⟨f, h⟩ | ⟨he, ra, ha, h⟩ | ⟨he, hp, h⟩
    · exact .inl ⟨f, by rw [exec, execJeq, h, conclude_error]⟩
    · exact .inr ⟨_, .inl ⟨he, ra, ha, rfl⟩, by rw [exec, execJeq, h, conclude_ok]⟩
    · exact .inr ⟨_, .inr ⟨he, hp, rfl⟩, by rw [exec, execJeq, h, conclude_ok]⟩
  | jne a =>
    rcases branch_cases (takenJne s.fl) a s with ⟨f, h⟩ | ⟨he, ra, ha, h⟩ | ⟨he, hp, h⟩
    · exact .inl ⟨f, by rw [exec, execJne, h, conclude_error]⟩
    · exact .inr ⟨_, .inl ⟨by simpa [takenJne] using he, ra, ha, rfl⟩, by rw [exec, execJne, h, conclude_ok]⟩
    · exact .inr ⟨_, .inr ⟨by simpa [takenJne] using he, hp, rfl⟩, by rw [exec, execJne, h, conclude_ok]⟩

/-- A next state of an instruction is a taken fault or its completion. -/
theorem exec_next {i : Instr} {s t : State} (h : exec i s = .next t) :
    (∃ f, t = takeFault f s) ∨ Completes i s t := by
  rcases exec_cases i s with ⟨f, hf⟩ | ⟨u, hc, hu⟩
  · rw [hf] at h
    cases h
    exact .inl ⟨f, rfl⟩
  · rw [hu] at h
    cases h
    exact .inr hc

/-- The checks of `i` pass in `s`: what they test is the operand bytes, `pc` and, for the conditional jumps, `FL.E`. -/
def ChecksPass (i : Instr) (pc : Byte) (e : Bool) : Prop :=
  match i with
  | .add a b => a.toNat ≤ 7 ∧ b.toNat ≤ 7 ∧ pc.toNat + 3 ≤ 255
  | .mul a b => a.toNat ≤ 7 ∧ b.toNat ≤ 7 ∧ pc.toNat + 3 ≤ 255
  | .cmp a b => a.toNat ≤ 7 ∧ b.toNat ≤ 7 ∧ pc.toNat + 3 ≤ 255
  | .halt => True
  | .ldi a _ => a.toNat ≤ 7 ∧ pc.toNat + 3 ≤ 255
  | .prn a => a.toNat ≤ 7 ∧ pc.toNat + 2 ≤ 255
  | .push a => a.toNat ≤ 7 ∧ pc.toNat + 2 ≤ 255
  | .pop a => a.toNat ≤ 7 ∧ pc.toNat + 2 ≤ 255
  | .call a => a.toNat ≤ 7 ∧ pc.toNat + 2 ≤ 255
  | .ret => True
  | .jmp a => a.toNat ≤ 7
  | .jeq a => (e = true ∧ a.toNat ≤ 7) ∨ (e = false ∧ pc.toNat + 2 ≤ 255)
  | .jne a => (e = false ∧ a.toNat ≤ 7) ∨ (e = true ∧ pc.toNat + 2 ≤ 255)

/-- A next state of a step is a taken fault, or the fetched instruction's completion. -/
theorem stepWith_next {ids : OpcodeIds} {s t : State} (h : stepWith ids s = .next t) :
    s.run = .running ∧ ((∃ f, t = takeFault f s) ∨ ∃ i, fetchInstr ids s = .ok i ∧ Completes i s t) := by
  rcases stepWith_cases ids s with ⟨-, hs⟩ | ⟨hr, i, hi, hs⟩ | ⟨hr, f, -, hs⟩
  · rw [hs] at h
    cases h
  · rw [hs] at h
    exact ⟨hr, (exec_next h).imp_right fun hc => ⟨i, hi, hc⟩⟩
  · rw [hs] at h
    cases h
    exact ⟨hr, .inl ⟨f, rfl⟩⟩

/-- Two registers with one operand byte are one register. -/
theorem byte_inj {r q : RegIndex} (h : r.byte = q.byte) : r = q := by
  have := congrArg BitVec.toNat h
  simp only [byte_toNat] at this
  exact Fin.ext this

/-- An instruction that completes passes its checks. -/
theorem Completes.checks {i : Instr} {s t : State} (h : Completes i s t) : ChecksPass i s.pc s.fl.e := by
  cases i <;> simp only [Completes] at h <;> simp only [ChecksPass]
  case add | mul | cmp =>
    obtain ⟨ra, rb, rfl, rfl, hp, -⟩ := h
    simp only [byte_toNat]
    omega
  case ldi | prn | push | pop | call =>
    obtain ⟨ra, rfl, hp, -⟩ := h
    simp only [byte_toNat]
    omega
  case jmp =>
    obtain ⟨ra, rfl, -⟩ := h
    simp only [byte_toNat]
    omega
  case jeq =>
    rcases h with ⟨he, ra, rfl, -⟩ | ⟨he, hp, -⟩
    · exact .inl ⟨he, by simp only [byte_toNat]; omega⟩
    · exact .inr ⟨he, hp⟩
  case jne =>
    rcases h with ⟨he, ra, rfl, -⟩ | ⟨he, hp, -⟩
    · exact .inl ⟨he, by simp only [byte_toNat]; omega⟩
    · exact .inr ⟨he, hp⟩

/-- The effects of an instruction give one state. -/
theorem Completes.unique {i : Instr} {s t u : State} (h : Completes i s t) (hu : Completes i s u) : t = u := by
  cases i <;> simp only [Completes] at h hu
  case add | mul | cmp =>
    obtain ⟨ra, rb, rfl, rfl, -, rfl⟩ := h
    obtain ⟨ra', rb', h1, h2, -, rfl⟩ := hu
    obtain rfl := byte_inj h1
    obtain rfl := byte_inj h2
    rfl
  case ldi | prn | push | pop | call =>
    obtain ⟨ra, rfl, -, rfl⟩ := h
    obtain ⟨ra', h1, -, rfl⟩ := hu
    obtain rfl := byte_inj h1
    rfl
  case halt | ret => rw [h, hu]
  case jmp =>
    obtain ⟨ra, rfl, rfl⟩ := h
    obtain ⟨ra', h1, rfl⟩ := hu
    obtain rfl := byte_inj h1
    rfl
  case jeq | jne =>
    rcases h with ⟨he, ra, rfl, rfl⟩ | ⟨he, -, rfl⟩ <;> rcases hu with ⟨he', ra', h1, rfl⟩ | ⟨he', -, rfl⟩
    · obtain rfl := byte_inj h1
      rfl
    · simp_all
    · simp_all
    · rfl

end Sys2Proof.Machine
end

