-- ==== Sys2Proof/Tests/Slice0.lean ====
section
/-! SUPPORT. The model's own tests. Expected values come from spec/95_test_vectors.md (the vector's id is named) or
from the tables of spec/30_encoding.md. -/

namespace Sys2Proof.Tests

open Sys2Proof Sys2Proof.Machine

/-! ## Well-formedness: each check refuses an ill-formed term -/

theorem test_wf_add_a : (Instr.add 8 0).wellFormed = false := by decide
theorem test_wf_add_b : (Instr.add 0 8).wellFormed = false := by decide
theorem test_wf_mul_a : (Instr.mul 255 0).wellFormed = false := by decide
theorem test_wf_mul_b : (Instr.mul 0 9).wellFormed = false := by decide
theorem test_wf_cmp_a : (Instr.cmp 16 0).wellFormed = false := by decide
theorem test_wf_cmp_b : (Instr.cmp 7 8).wellFormed = false := by decide
theorem test_wf_ldi : (Instr.ldi 8 0).wellFormed = false ∧ (Instr.ldi 7 255).wellFormed = true := by decide
theorem test_wf_prn : (Instr.prn 8).wellFormed = false := by decide
theorem test_wf_push : (Instr.push 8).wellFormed = false := by decide
theorem test_wf_pop : (Instr.pop 8).wellFormed = false := by decide
theorem test_wf_call : (Instr.call 8).wellFormed = false := by decide
theorem test_wf_jmp : (Instr.jmp 8).wellFormed = false := by decide
theorem test_wf_jeq : (Instr.jeq 8).wellFormed = false := by decide
theorem test_wf_jne : (Instr.jne 8).wellFormed = false := by decide

/-! ## Decoding: each constructor from a word written bit by bit from R48 and R52 -/

theorem test_decode_add : decode defaultIds [0b10100000, 0, 1] = .ok (.add 0 1, []) := by decide
theorem test_decode_add_alias : decode defaultIds [0b10110000, 0, 1] = .ok (.add 0 1, []) := by decide
theorem test_decode_mul : decode defaultIds [0b10100010, 3, 4] = .ok (.mul 3 4, []) := by decide
theorem test_decode_mul_alias : decode defaultIds [0b10110010, 3, 4] = .ok (.mul 3 4, []) := by decide
theorem test_decode_cmp : decode defaultIds [0b10100111, 0, 2] = .ok (.cmp 0 2, []) := by decide
theorem test_decode_cmp_alias : decode defaultIds [0b10110111, 0, 2] = .ok (.cmp 0 2, []) := by decide
theorem test_decode_halt : decode defaultIds [0b00000001, 9] = .ok (.halt, [9]) := by decide
theorem test_decode_ldi : decode defaultIds [0b10000010, 7, 64] = .ok (.ldi 7 64, []) := by decide
theorem test_decode_prn : decode defaultIds [0b01000111, 5, 1] = .ok (.prn 5, [1]) := by decide
theorem test_decode_push : decode defaultIds [0b01000101, 6] = .ok (.push 6, []) := by decide
theorem test_decode_pop : decode defaultIds [0b01000110, 1] = .ok (.pop 1, []) := by decide
theorem test_decode_call : decode defaultIds [0b01010000, 2] = .ok (.call 2, []) := by decide
theorem test_decode_ret : decode defaultIds [0b00010001] = .ok (.ret, []) := by decide
theorem test_decode_jmp : decode defaultIds [0b01010100, 3] = .ok (.jmp 3, []) := by decide
theorem test_decode_jeq : decode defaultIds [0b01010101, 255] = .ok (.jeq 255, []) := by decide
theorem test_decode_jne : decode defaultIds [0b01010110, 0] = .ok (.jne 0, []) := by decide

/-- 95_test_vectors.md X1, X7, X9, and a list that ends early. -/
theorem test_decode_rejects :
    decode defaultIds [0x0F] = .error (.dispatch (.unknownOpcode 0x0F)) ∧
    decode defaultIds [0x21] = .error (.dispatch (.unsupportedAluOp 0x21)) ∧
    decode defaultIds [0x85, 0, 0] = .error (.dispatch (.illegalArity 0x85)) ∧
    decode defaultIds [0x82, 0] = .error (.truncated 2) := by decide

theorem test_table_word : decodeTableWord 8 0xA2 = some (.mul 0 0) ∧
    decodeTableWord 24 0x050382 = some (.ldi 3 5) ∧ decodeTableWord 8 0x12 = none := by decide

theorem test_encode_p1 :
    [Instr.ldi 0 8, .ldi 1 9, .mul 0 1, .prn 0, .halt].flatMap (encode defaultIds) =
      [0x82, 0x00, 0x08, 0x82, 0x01, 0x09, 0xA2, 0x00, 0x01, 0x47, 0x00, 0x01] := by decide

theorem test_text : (Instr.ldi 0 8).text = "LDI R0,8" ∧ (Instr.mul 0 1).text = "MUL R0,R1" := by decide

theorem test_defaultIds_distinct : defaultIds.Distinct := by decide

/-! ## Steps, on a small state: bytes at `pc`, some registers set -/

/-- The reset state with `bytes` from address `pc` on and the given registers. -/
def at_ (pc : Nat) (bytes : List Byte) (regs : List (RegIndex × Byte)) : State :=
  regs.foldl (fun s rv => s.setReg rv.1 rv.2)
    { State.reset with pc := BitVec.ofNat 8 pc, mem := placeBytes pc bytes [] }

/-- The state after one step from `s`, changed by `f`; nothing if there is no next state. -/
def after {α : Type} (s : State) (f : State → α) : Option α :=
  match step s with
  | .next t => some (f t)
  | .fault _ => none
  | .refused _ => none

/-- AD1. -/
theorem test_add_wraps : after (at_ 0 [0xA0, 0, 1] [(0, 200), (1, 100)]) (fun t => (t.reg 0, t.reg 1, t.pc)) =
    some (44, 100, 3) := by decide
/-- AD6, AD7. -/
theorem test_add_sp_alias : after (at_ 0 [0xB0, 7, 0] [(0, 2)]) (fun t => t.reg 7) = some 0xF6 := by decide
/-- MU3. -/
theorem test_mul_wraps : after (at_ 0 [0xA2, 0, 1] [(0, 255), (1, 255)]) (fun t => t.reg 0) = some 1 := by decide
/-- CM2. -/
theorem test_cmp_unsigned : after (at_ 0 [0xA7, 0, 1] [(0, 255)]) (fun t => t.fl) = some ⟨false, true, false⟩ := by
  decide
/-- CM6. -/
theorem test_cmp_clears : after ((at_ 0 [0xA7, 0, 1] [(0, 1), (1, 2)]).setFlags ⟨true, false, false⟩) (fun t => t.fl) =
    some ⟨false, false, true⟩ := by decide
/-- HA2. -/
theorem test_halt_at_255 : after (at_ 255 [1] []) (fun t => (t.run, t.cause, t.pc)) =
    some (.halted, .none, 255) := by decide
/-- LD4. -/
theorem test_ldi_last_place : after (at_ 252 [0x82, 5, 0] [(5, 9)]) (fun t => (t.reg 5, t.pc)) = some (0, 255) := by
  decide
/-- PR2. -/
theorem test_prn_sp : after (at_ 0 [0x47, 7] []) (fun t => (t.out, t.pc)) = some ([244], 2) := by decide
/-- ST2. -/
theorem test_push_wraps : after (at_ 0 [0x45, 0] [(0, 0xAB), (7, 0)]) (fun t => (t.sp, t.read 0xFF, t.pc)) =
    some (0xFF, 0xAB, 2) := by decide
/-- ST3, and Y2: the store onto the instruction's own operand byte. -/
theorem test_push_sp_and_self : after (at_ 0 [0x45, 7] []) (fun t => (t.sp, t.read 0xF3)) = some (0xF3, 0xF3) ∧
    after (at_ 0 [0x45, 0] [(0, 1), (7, 2)]) (fun t => (t.sp, t.read 1, t.pc)) = some (1, 1, 2) := by decide
/-- ST4. -/
theorem test_pop : after ((at_ 0 [0x46, 1] [(7, 0xF3)]).write 0xF3 0x5A) (fun t => (t.reg 1, t.sp, t.read 0xF3)) =
    some (0x5A, 0xF4, 0x5A) := by decide
/-- ST6. -/
theorem test_pop_sp : after ((at_ 0 [0x46, 7] []).write 0xF4 0x20) (fun t => t.sp) = some 0x21 := by decide
/-- T1. -/
theorem test_call : after (at_ 6 [0x50, 1] [(1, 11)]) (fun t => (t.sp, t.read 0xF3, t.pc)) = some (0xF3, 8, 11) := by
  decide
/-- T3. -/
theorem test_call_sp : after (at_ 0 [0x50, 7] []) (fun t => (t.read 0xF3, t.pc)) = some (2, 0xF3) := by decide
/-- T5. -/
theorem test_ret : after ((at_ 14 [0x11] [(7, 0xF3)]).write 0xF3 8) (fun t => (t.pc, t.sp)) = some (8, 0xF4) := by
  decide
/-- T7. -/
theorem test_ret_wraps : after ((at_ 0 [0x11] [(7, 0xFF)]).write 0xFF 0x30) (fun t => (t.pc, t.sp)) = some (0x30, 0) := by
  decide
/-- T9. -/
theorem test_jmp_at_254 : after (at_ 254 [0x54, 0] []) (fun t => (t.pc, t.run)) = some (0, .running) := by decide
/-- BR1, BR3. -/
theorem test_jeq : after ((at_ 10 [0x55, 2] [(2, 40)]).setFlags ⟨true, false, false⟩) State.pc = some 40 ∧
    after ((at_ 10 [0x55, 2] [(2, 40)]).setFlags ⟨false, false, true⟩) State.pc = some 12 := by decide
/-- BR5, BR8. -/
theorem test_jne : after ((at_ 10 [0x56, 2] [(2, 40)]).setFlags ⟨true, false, false⟩) State.pc = some 12 ∧
    after (at_ 10 [0x56, 2] [(2, 40)]) State.pc = some 40 := by decide

/-! ## Faults -/

/-- X1, X5, X8: cause, and `pc` unchanged. -/
theorem test_dispatch_faults : after (at_ 0 [0x0F] []) (fun t => (t.cause.code, t.pc)) = some (2, 0) ∧
    after (at_ 0 [0x61] []) (fun t => (t.cause.code, t.pc)) = some (1, 0) ∧
    after (at_ 0 [0x10] []) (fun t => (t.cause.code, t.pc)) = some (3, 0) := by decide
/-- RF1, RF7, RF8. -/
theorem test_reg_faults : after (at_ 0 [0x82, 8, 1] []) (fun t => t.cause.code) = some 5 ∧
    after (at_ 0 [0x55, 0xFF] []) (fun t => (t.run, t.pc)) = some (.running, 2) ∧
    after (at_ 0 [0x56, 0xFF] []) (fun t => t.cause.code) = some 5 := by decide
/-- RF9, RF16, RF17. -/
theorem test_range_faults : after (at_ 253 [0x82, 0, 7] []) (fun t => (t.cause.code, t.reg 0)) = some (4, 0) ∧
    after (at_ 254 [0x82, 9] []) (fun t => t.cause.code) = some 4 ∧
    after (at_ 254 [0x45, 9] []) (fun t => t.cause.code) = some 5 := by decide
/-- RF12: the whole state after a fault is the state before it with `RUN` and `CAUSE` written (R141). -/
theorem test_fault_is_precise : after (at_ 255 [0x47] []) (fun t => t) =
    some { at_ 255 [0x47] [] with run := .halted, cause := .memRangeFault } := by decide
theorem test_halted_has_no_step : step State.reset.halt = .refused .halted := rfl

/-! ## What stands around the core -/

theorem test_withFetchWord : after (State.reset.withFetchWord 8 0x47) (fun t => t.out) = some [0] := by decide
theorem test_launch_refuses_empty : launch [] [] = none := by decide
theorem test_launch_p2 : (launch [] [0x45, 0x00, 0x46, 0x01, 0x01]).map (fun s => (s.read 0, s.read 2, s.sp, s.pc)) =
    some (0x45, 0x46, 244, 0) := by decide
/-- The first lines of R61's example, a comment line added. -/
theorem test_image : imageBytes ["10000010 # LDI".toList, "# a comment".toList, [], "00001000".toList] =
    some [0x82, 0x08] := by decide
theorem test_exit_codes : hostExitCode State.reset = none ∧ hostExitCode State.reset.halt = some 0 ∧
    hostExitCode (takeFault (.unknownOpcode 0) State.reset) = some 1 := by decide
/-- The block's events of T1: two fetches, then the write (R43). -/
theorem test_block_events_call : (blockStep defaultIds (at_ 6 [0x50, 1] [(1, 11)])).map BlockResult.events =
    some [.memRead 6, .memRead 7, .memWrite 0xF3 8] := by decide
theorem test_block_events_prn : (blockStep defaultIds (at_ 0 [0x47, 7] [])).map BlockResult.events =
    some [.memRead 0, .memRead 1, .emit 244] := by decide

/-! ## Witnesses: for each statement of Obligations.lean with hypotheses, concrete terms that meet them, clause by
clause, at the ends of their ranges -/

/-- A running state with these bytes at `pc` fetches a byte that names `op`: the hypotheses of `RunsAs`. -/
abbrev FetchesOp (op : Op) (pc : Nat) (bytes : List Byte) : Prop :=
  defaultIds.Distinct ∧ (at_ pc bytes []).run = .running ∧
    Names defaultIds ((at_ pc bytes []).read (at_ pc bytes []).pc) op

theorem test_witness_DispatchSelectsByGroupAndIdentifier : defaultIds.Distinct ∧
    { defaultIds with add := 15, halt := 9 }.Distinct := by decide
theorem test_witness_DecodeOfEncodeIsTheInstruction : defaultIds.Distinct := by decide
theorem test_witness_DecodedBytesAreTheEncoding : decode defaultIds [0xA0, 0, 255] = .ok (.add 0 255, []) ∧
    decode defaultIds [0xB0, 0, 255] = .ok (.add 0 255, []) := by decide
theorem test_witness_LengthIsOnePlusOperandCount : decode defaultIds [0x01] = .ok (.halt, []) ∧
    decode defaultIds [0x82, 0, 1, 2] = .ok (.ldi 0 1, [2]) := by decide
theorem test_witness_AluPathIgnoresSetsPcBit : (splitByte 0xB7).alu = true := by decide
theorem test_witness_StepRunsTheDecodedInstruction :
    (at_ 253 [0x82, 0, 7] []).run = .running ∧
    decode defaultIds (at_ 253 [0x82, 0, 7] []).codeBytes = .ok (.ldi 0 7, []) ∧
    decode defaultIds (at_ 255 [0x11] []).codeBytes = .ok (.ret, []) := by decide
theorem test_witness_StepTakesTheFaultOfTheFetch :
    (at_ 0 [0x0F] []).run = .running ∧
    decode defaultIds (at_ 0 [0x0F] []).codeBytes = .error (.dispatch (.unknownOpcode 0x0F)) ∧
    decode defaultIds (at_ 255 [0x47] []).codeBytes = .error (.truncated 1) ∧
    decode defaultIds (at_ 254 [0x82] []).codeBytes = .error (.truncated 2) := by decide
theorem test_witness_UnsupportedAluByteHalts : (at_ 0 [0xF1] []).run = .running ∧
    (splitByte ((at_ 0 [0xF1] []).read (at_ 0 [0xF1] []).pc)).alu = true ∧
    (splitByte ((at_ 0 [0xF1] []).read (at_ 0 [0xF1] []).pc)).opc ∉ [defaultIds.add, defaultIds.mul, defaultIds.cmp] := by
  decide
theorem test_witness_UnknownOpcodeByteHalts : (at_ 0 [0x03] []).run = .running ∧
    (splitByte ((at_ 0 [0x03] []).read 0)).alu = false ∧ (splitByte ((at_ 0 [0x03] []).read 0)).spc = false ∧
    (splitByte ((at_ 0 [0x03] []).read 0)).opc ∉
      [defaultIds.halt, defaultIds.ldi, defaultIds.prn, defaultIds.push, defaultIds.pop] ∧
    (splitByte ((at_ 0 [0xD2] []).read 0)).alu = false ∧ (splitByte ((at_ 0 [0xD2] []).read 0)).spc = true ∧
    (splitByte ((at_ 0 [0xD2] []).read 0)).opc ∉
      [defaultIds.call, defaultIds.ret, defaultIds.jmp, defaultIds.jeq, defaultIds.jne] := by decide
theorem test_witness_WrongOperandCountHalts : (at_ 0 [0xC5] []).run = .running ∧
    dispatch defaultIds ((at_ 0 [0xC5] []).read (at_ 0 [0xC5] []).pc) = .ok .push ∧
    (splitByte ((at_ 0 [0xC5] []).read (at_ 0 [0xC5] []).pc)).n.toNat ≠ Op.push.arity ∧
    dispatch defaultIds 0x20 = .ok .add ∧ (splitByte 0x20).n.toNat ≠ Op.add.arity := by decide
theorem test_witness_HaltedMachineHasNoStep : State.reset.halt.run = .halted := rfl
theorem test_witness_RunningMachineAlwaysSteps : State.reset.run = .running := rfl

theorem test_witness_AddRule : FetchesOp .add 253 [0xA0, 0, 1] ∧ FetchesOp .add 254 [0xB0, 0] ∧
    7 < (8 : Byte).toNat ∧ 255 < (at_ 253 [] []).pc.toNat + 3 ∧ (at_ 252 [] []).pc.toNat + 3 ≤ 255 := by decide
theorem test_witness_MulRule : FetchesOp .mul 253 [0xA2, 0, 1] ∧ FetchesOp .mul 255 [0xB2] ∧
    7 < (255 : Byte).toNat ∧ 255 < (at_ 253 [] []).pc.toNat + 3 ∧ (at_ 252 [] []).pc.toNat + 3 ≤ 255 := by decide
theorem test_witness_CmpRule : FetchesOp .cmp 253 [0xA7, 0, 1] ∧ FetchesOp .cmp 254 [0xB7, 0] ∧
    7 < (8 : Byte).toNat ∧ 255 < (at_ 253 [] []).pc.toNat + 3 ∧ (at_ 252 [] []).pc.toNat + 3 ≤ 255 := by decide
theorem test_witness_HaltRule : FetchesOp .halt 0 [0x01] ∧ FetchesOp .halt 255 [0x01] := by decide
theorem test_witness_LdiRule : FetchesOp .ldi 253 [0x82, 0, 1] ∧ FetchesOp .ldi 254 [0x82, 0] ∧
    7 < (8 : Byte).toNat ∧ 255 < (at_ 253 [] []).pc.toNat + 3 ∧ (at_ 252 [] []).pc.toNat + 3 ≤ 255 := by decide
theorem test_witness_PrnRule : FetchesOp .prn 254 [0x47, 0] ∧ FetchesOp .prn 255 [0x47] ∧
    7 < (8 : Byte).toNat ∧ 255 < (at_ 254 [] []).pc.toNat + 2 ∧ (at_ 253 [] []).pc.toNat + 2 ≤ 255 := by decide
theorem test_witness_PushRule : FetchesOp .push 254 [0x45, 0] ∧ FetchesOp .push 255 [0x45] ∧
    7 < (8 : Byte).toNat ∧ 255 < (at_ 254 [] []).pc.toNat + 2 ∧
    Memory.wf (at_ 253 [0x45, 7] []).mem ∧ (at_ 253 [0x45, 7] []).pc.toNat + 2 ≤ 255 := by decide
theorem test_witness_PopRule : FetchesOp .pop 254 [0x46, 0] ∧ FetchesOp .pop 255 [0x46] ∧
    7 < (8 : Byte).toNat ∧ 255 < (at_ 254 [] []).pc.toNat + 2 ∧ (at_ 253 [] []).pc.toNat + 2 ≤ 255 := by decide
theorem test_witness_CallRule : FetchesOp .call 254 [0x50, 0] ∧ FetchesOp .call 255 [0x50] ∧
    7 < (8 : Byte).toNat ∧ 255 < (at_ 254 [] []).pc.toNat + 2 ∧
    Memory.wf (at_ 253 [0x50, 7] []).mem ∧ (at_ 253 [0x50, 7] []).pc.toNat + 2 ≤ 255 := by decide
theorem test_witness_RetRule : FetchesOp .ret 0 [0x11] ∧ FetchesOp .ret 255 [0x11] := by decide
theorem test_witness_JmpRule : FetchesOp .jmp 254 [0x54, 0] ∧ FetchesOp .jmp 255 [0x54] ∧ 7 < (8 : Byte).toNat := by
  decide
theorem test_witness_JeqRule : FetchesOp .jeq 254 [0x55, 0] ∧ FetchesOp .jeq 255 [0x55] ∧ 7 < (8 : Byte).toNat ∧
    ((at_ 0 [] []).setFlags ⟨true, false, false⟩).fl.e = true ∧ (at_ 254 [] []).fl.e = false ∧
    255 < (at_ 254 [] []).pc.toNat + 2 ∧ (at_ 253 [] []).pc.toNat + 2 ≤ 255 := by decide
theorem test_witness_JneRule : FetchesOp .jne 254 [0x56, 0] ∧ FetchesOp .jne 255 [0x56] ∧ 7 < (8 : Byte).toNat ∧
    (at_ 0 [] []).fl.e = false ∧ ((at_ 254 [] []).setFlags ⟨true, false, false⟩).fl.e = true ∧
    255 < ((at_ 254 [] []).setFlags ⟨true, false, false⟩).pc.toNat + 2 ∧ (at_ 253 [] []).pc.toNat + 2 ≤ 255 := by decide

theorem test_witness_OnlyCmpWritesAndOnlyJumpsReadFlags :
    (∀ a b, Instr.ret ≠ .cmp a b) ∧ (∃ t, exec .ret State.reset = .next t) ∧
    (⟨true, true, false⟩ : Flags).e = (State.reset.setFlags ⟨true, false, false⟩).fl.e ∧
    (at_ 252 [] []).pc.toNat + 3 ≤ 255 ∧ (at_ 253 [] []).pc.toNat + 2 ≤ 255 ∧
    (at_ 253 [] []).reg 0 ≠ (at_ 253 [] []).pc + 2 ∧
    (∃ t u, exec (.jeq (RegIndex.byte 0)) ((at_ 253 [] []).setFlags ⟨true, false, false⟩) = .next t ∧
      exec (.jeq (RegIndex.byte 0)) ((at_ 253 [] []).setFlags ⟨false, false, false⟩) = .next u) ∧
    (∃ t u, exec (.jne (RegIndex.byte 0)) ((at_ 253 [] []).setFlags ⟨true, false, false⟩) = .next t ∧
      exec (.jne (RegIndex.byte 0)) ((at_ 253 [] []).setFlags ⟨false, false, false⟩) = .next u) :=
  ⟨nofun, ⟨_, rfl⟩, rfl, by decide, by decide, by decide, ⟨_, _, rfl, rfl⟩, ⟨_, _, rfl, rfl⟩⟩
theorem test_witness_OutputIsAppendedByPrnAndNeverRead :
    (∃ t, exec (.prn 7) State.reset = .next t) ∧ (∃ t, exec .halt State.reset = .next t) := ⟨⟨_, rfl⟩, ⟨_, rfl⟩⟩
theorem test_witness_RunEndsByHaltOrByFault :
    (∃ t, (at_ 255 [0x01] []).run = .running ∧ (at_ 255 [0x01] []).cause = .none ∧
      stepWith defaultIds (at_ 255 [0x01] []) = .next t ∧ t.run = .halted) ∧
    (∃ t, stepWith defaultIds (at_ 255 [0x47] []) = .next t ∧ t.run = .halted) ∧
    State.reset.halt.run = .halted := ⟨⟨_, rfl, rfl, rfl, rfl⟩, ⟨_, rfl, rfl⟩, rfl⟩
theorem test_witness_OnlyStackInstructionsTouchDataMemory :
    (Memory.wf (at_ 253 [0x45, 7] []).mem ∧ (at_ 253 [0x45, 7] []).pc.toNat + 2 ≤ 255) ∧
    (∃ t, exec (.ldi 0 1) State.reset = .next t) ∧ (∀ a, Instr.ldi 0 1 ≠ .push a) ∧ (∀ a, Instr.ldi 0 1 ≠ .call a) ∧
    (∀ a, Instr.push 0 ≠ .pop a) ∧ Instr.push 0 ≠ .ret ∧
    ((∃ a, Instr.pop 1 = .pop a) ∧ Memory.get State.reset.sp.toNat [(3, 9)] = State.reset.read State.reset.sp) ∧
    ((State.reset.write 9 1).pc = State.reset.pc ∧ (State.reset.write 9 1).codeBytes = State.reset.codeBytes) :=
  ⟨by decide, ⟨_, rfl⟩, nofun, nofun, nofun, nofun, ⟨⟨1, rfl⟩, by decide⟩, by decide⟩
theorem test_witness_InstructionsUseOnlyTheirRegisters :
    (∃ t, exec (.push 0) State.reset = .next t) ∧ ¬ WritesReg (.push 0) 1 ∧ ¬ ReadsReg (.push 0) State.reset.fl 1 ∧
    ¬ WritesReg (.jeq 1) 1 ∧ ¬ ReadsReg (.jeq 1) State.reset.fl 1 ∧
    WritesReg (.ldi 7 9) 7 ∧ ¬ ReadsReg (.ldi 7 9) (at_ 252 [] []).fl 7 ∧
    WritesReg (.pop 6) 6 ∧ ¬ ReadsReg (.pop 6) (at_ 252 [] []).fl 6 := by
  refine ⟨⟨_, rfl⟩, ?_, ?_, ?_, ?_, ?_, ?_, ?_, ?_⟩ <;> simp only [WritesReg, ReadsReg] <;> decide
/-- The written and not read destination, where the instruction completes and where it faults. -/
theorem test_witness_InstructionsUseOnlyTheirRegisters_ends :
    (∃ t, exec (.ldi 7 9) (at_ 252 [] []) = .next t ∧ ∀ f, t ≠ takeFault f (at_ 252 [] [])) ∧
    (∃ t, exec (.pop 6) (at_ 253 [] []) = .next t ∧ ∀ f, t ≠ takeFault f (at_ 253 [] [])) ∧
    Faults (.ldi 7 9) (at_ 253 [] []) (.memRangeFault 256) ∧ Faults (.pop 6) (at_ 254 [] []) (.memRangeFault 256) :=
  ⟨⟨_, rfl, fun _ h => nomatch (show RunState.running = RunState.halted from congrArg State.run h)⟩,
    ⟨_, rfl, fun _ h => nomatch (show RunState.running = RunState.halted from congrArg State.run h)⟩, rfl, rfl⟩
theorem test_witness_LaunchHoldsTheImage : Memory.wf [(255, 1)] ∧ 1 ≤ [(1 : Byte)].length ∧
    (List.replicate 256 (1 : Byte)).length ≤ 256 ∧ ([] : List Byte).length = 0 ∧
    256 < (List.replicate 257 (1 : Byte)).length :=
  ⟨by decide, by simp, by rw [List.length_replicate], rfl, by rw [List.length_replicate]; omega⟩
theorem test_witness_MemoryIsItsTwoHundredFiftySixCells : Memory.wf [(0, 1), (255, 2)] ∧
    ∀ addr : Byte, Memory.get addr.toNat [(0, 1), (255, 2)] = Memory.get addr.toNat [(0, 1), (255, 2)] :=
  ⟨by decide, fun _ => rfl⟩
theorem test_witness_StackWrapsAtBothEnds : Memory.wf (at_ 253 [0x45, 0] [(7, 0)]).mem ∧
    (at_ 253 [0x45, 0] [(7, 0)]).sp = 0 ∧ (0 : RegIndex) ≠ spIndex ∧ (at_ 253 [0x45, 0] [(7, 0)]).pc.toNat ≤ 253 ∧
    (at_ 253 [0x46, 0] [(7, 255)]).sp = 255 := by decide
theorem test_witness_StepKeepsTheInvariant : (at_ 0 [0x45, 0] []).Inv ∧
    ((at_ 0 [0x45, 0] []).setFlags ⟨false, false, true⟩).Inv ∧ (at_ 0 [0x45, 0] []).halt.Inv ∧
    ∃ t, stepWith defaultIds (at_ 0 [0x45, 0] []) = .next t := ⟨by decide, by decide, by decide, ⟨_, rfl⟩⟩
theorem test_witness_ResetAndLaunchMeetTheInvariant : Memory.wf [(200, 3)] ∧ ∃ s, launch [(200, 3)] [0x01] = some s :=
  ⟨by decide, ⟨_, rfl⟩⟩
theorem test_witness_FlagsStayOneHotAfterACompare :
    ((at_ 0 [0xA7, 0, 0] []).setFlags ⟨false, true, false⟩).fl.OneSet ∧
    ∃ t, stepWith defaultIds ((at_ 0 [0xA7, 0, 0] []).setFlags ⟨false, true, false⟩) = .next t :=
  ⟨by decide, ⟨_, rfl⟩⟩
theorem test_witness_RunGoesOnUntilHalted : State.reset.run = .running := rfl
/-- A push and a call at 253 onto cell 255, the pushed byte fetched in a later state with another register file, the
call's as operand byte 2 right after it. -/
theorem test_witness_StoreIsSeenByTheNextFetch :
    Memory.wf (at_ 253 [0x45, 1] [(7, 0), (0, 255)]).mem ∧ (at_ 253 [0x45, 1] [(7, 0), (0, 255)]).pc.toNat + 2 ≤ 255 ∧
    (∃ t, exec (.push (RegIndex.byte 1)) (at_ 253 [0x45, 1] [(7, 0), (0, 255)]) = .next t ∧
      (t.setReg 0 3).read (at_ 253 [0x45, 1] [(7, 0), (0, 255)]).decSp.sp =
        t.read (at_ 253 [0x45, 1] [(7, 0), (0, 255)]).decSp.sp ∧
      (t.setReg 0 3).pc.toNat + 0 = (at_ 253 [0x45, 1] [(7, 0), (0, 255)]).decSp.sp.toNat) ∧
    (∃ t, exec (.call (RegIndex.byte 0)) (at_ 253 [0x50, 0] [(7, 0), (0, 253)]) = .next t ∧
      t.read (at_ 253 [0x50, 0] [(7, 0), (0, 253)]).decSp.sp = t.read (at_ 253 [0x50, 0] [(7, 0), (0, 253)]).decSp.sp ∧
      t.pc.toNat + 2 = (at_ 253 [0x50, 0] [(7, 0), (0, 253)]).decSp.sp.toNat) ∧
    ∃ v, State.reset.fetch 0 = .ok v :=
  ⟨by decide, by decide, ⟨_, rfl, by decide, by decide⟩, ⟨_, rfl, rfl, by decide⟩, ⟨_, rfl⟩⟩
theorem test_witness_PushThenPopMovesTheValue : Memory.wf (at_ 251 [0x45, 0, 0x46, 7] []).mem ∧
    (at_ 251 [0x45, 0, 0x46, 7] []).pc.toNat + 4 ≤ 255 ∧ (0 : RegIndex) ≠ spIndex ∧ (7 : RegIndex) = spIndex := by decide
theorem test_witness_RetResumesAfterTheCall : Memory.wf (at_ 253 [0x50, 1] []).mem ∧
    (at_ 253 [0x50, 1] []).pc.toNat + 2 ≤ 255 ∧
    ∃ t, exec (.call (RegIndex.byte 1)) (at_ 253 [0x50, 1] []) = .next t ∧
      (t.setReg 0 5).sp = t.sp ∧ (t.setReg 0 5).read t.sp = t.read t.sp :=
  ⟨by decide, by decide, ⟨_, rfl, by decide, by decide⟩⟩
theorem test_witness_PortEventsAccountForMemoryAndOutput : ∃ r, blockStep defaultIds (at_ 0 [0x45, 0] []) = some r :=
  ⟨_, rfl⟩
theorem test_witness_AccessesOfAnInstructionInOrder :
    (∃ r, blockStep defaultIds (at_ 253 [0x45, 0] []) = some r ∧
      fetchInstr defaultIds (at_ 253 [0x45, 0] []) = .ok (.push 0) ∧ (at_ 253 [0x45, 0] []).cause = .none ∧
      ∀ f, r.state ≠ takeFault f (at_ 253 [0x45, 0] [])) ∧
    (∃ r, blockStep defaultIds (at_ 254 [0x82, 0] []) = some r ∧ (at_ 254 [0x82, 0] []).cause = .none ∧
      r.state = takeFault (.memRangeFault 256) (at_ 254 [0x82, 0] [])) :=
  ⟨⟨_, rfl, rfl, rfl, fun _ h =>
    nomatch (show RunState.running = RunState.halted from congrArg State.run h)⟩, ⟨_, rfl, rfl, rfl⟩⟩
theorem test_witness_ClockedBlockResetsStepsOrHolds :
    (∃ t, stepWith defaultIds State.reset = .next t) ∧ State.reset.halt.run = .halted := ⟨⟨_, rfl⟩, rfl⟩
theorem test_witness_ExitCodeSaysHowTheRunEnded : State.reset.run = .running ∧ State.reset.halt.EndedNormally ∧
    (takeFault (.unsupportedAluOp 0x21) State.reset).EndedFatally := by decide

end Sys2Proof.Tests
end

/-! SUPPORT. The statements about the items of state: who writes and reads `FL` and `OUT`, how a run ends, and the
registers after reset. The commuting lemmas say once, per shared shape of a meaning, that an instruction run from
another state with the same `pc` does the same and carries the difference along. -/

namespace Sys2Proof.Machine

/-! ## Completion from operand bytes that name registers -/

/-- The checks of the ALU group pass where both bytes name registers and the advance stays inside memory. -/
theorem withRegPair_byte {s : State} (a b : RegIndex) (hp : s.pc.toNat + 3 ≤ 255)
    (effect : RegIndex → RegIndex → Byte → State) :
    withRegPair a.byte b.byte s effect = .ok (effect a b (s.pc + 3)) := by
  have hn : advance s 2 = .ok (s.pc + 3) := advance_ok (by omega) hp
  simp [withRegPair, hn, bind, Except.bind, pure, Except.pure]

theorem exec_cmp_byte {s : State} (a b : RegIndex) (hp : s.pc.toNat + 3 ≤ 255) :
    exec (.cmp a.byte b.byte) s =
      .next ((s.setFlags (compareFlags (s.reg a) (s.reg b))).setPc (s.pc + 3)) := by
  rw [exec, execCmp, withRegPair_byte a b hp, conclude_ok]

theorem exec_prn_byte {s : State} (a : RegIndex) (hp : s.pc.toNat + 2 ≤ 255) :
    exec (.prn a.byte) s = .next ((s.emit (s.reg a)).setPc (s.pc + 2)) := by
  have hn : advance s 1 = .ok (s.pc + 2) := advance_ok (by omega) hp
  simp [exec, execPrn, hn, bind, Except.bind, pure, Except.pure]

/-- A conditional jump to a register, with room for the advance, goes to the register or past itself. -/
theorem branch_byte {s : State} (taken : Bool) (a : RegIndex) (hp : s.pc.toNat + 2 ≤ 255) :
    branch taken a.byte s = .ok (s.setPc (if taken then s.reg a else s.pc + 2)) := by
  have hn : advance s 1 = .ok (s.pc + 2) := advance_ok (by omega) hp
  cases taken <;> simp [branch, jumpTo, hn, bind, Except.bind, pure, Except.pure]

theorem exec_jeq_byte {s : State} (a : RegIndex) (hp : s.pc.toNat + 2 ≤ 255) :
    exec (.jeq a.byte) s = .next (s.setPc (if s.fl.e then s.reg a else s.pc + 2)) := by
  rw [exec, execJeq, branch_byte _ a hp, conclude_ok, takenJeq]

theorem exec_jne_byte {s : State} (a : RegIndex) (hp : s.pc.toNat + 2 ≤ 255) :
    exec (.jne a.byte) s = .next (s.setPc (if !s.fl.e then s.reg a else s.pc + 2)) := by
  rw [exec, execJne, branch_byte _ a hp, conclude_ok, takenJne]

/-! ## What a completed instruction leaves alone -/

/-- Only `HALT`, `PRN` and `CMP` write one of `FL`, `RUN`, `CAUSE` and `OUT` where they complete (R20, R22, R23). -/
theorem Completes.control_cases {i : Instr} {s t : State} (h : Completes i s t) :
    (i = .halt ∧ t = s.halt) ∨
    (∃ a : RegIndex, i = .prn a.byte ∧ t = (s.emit (s.reg a)).setPc (s.pc + 2)) ∨
    (∃ a b : RegIndex, i = .cmp a.byte b.byte ∧
      t = (s.setFlags (compareFlags (s.reg a) (s.reg b))).setPc (s.pc + 3)) ∨
    SameControl s t := by
  cases i <;> simp only [Completes] at h
  case halt => exact .inl ⟨rfl, h⟩
  case prn =>
    obtain ⟨a, rfl, -, ht⟩ := h
    exact .inr (.inl ⟨a, rfl, ht⟩)
  case cmp =>
    obtain ⟨a, b, rfl, rfl, -, ht⟩ := h
    exact .inr (.inr (.inl ⟨a, b, rfl, ht⟩))
  all_goals refine .inr (.inr (.inr ?_))
  case add | mul =>
    obtain ⟨_, _, -, -, -, rfl⟩ := h
    exact ⟨rfl, ⟨rfl, rfl⟩, rfl⟩
  case ldi | push | pop | call =>
    obtain ⟨_, -, -, rfl⟩ := h
    exact ⟨rfl, ⟨rfl, rfl⟩, rfl⟩
  case ret =>
    subst h
    exact ⟨rfl, ⟨rfl, rfl⟩, rfl⟩
  case jmp =>
    obtain ⟨_, -, rfl⟩ := h
    exact ⟨rfl, ⟨rfl, rfl⟩, rfl⟩
  case jeq | jne => rcases h with ⟨-, _, -, rfl⟩ | ⟨-, -, rfl⟩ <;> exact ⟨rfl, ⟨rfl, rfl⟩, rfl⟩

/-- Only `CMP` writes `FL` (R20). -/
theorem Completes.fl_eq {i : Instr} {s t : State} (h : Completes i s t) (hi : ∀ a b, i ≠ .cmp a b) :
    t.fl = s.fl := by
  rcases h.control_cases with ⟨-, rfl⟩ | ⟨_, -, rfl⟩ | ⟨a, b, rfl, -⟩ | ⟨hfl, -, -⟩
  · rfl
  · rfl
  · exact absurd rfl (hi a.byte b.byte)
  · exact hfl

/-- Only `PRN` of a register writes `OUT`, and it appends that register's value (R22). -/
theorem Completes.out_cases {i : Instr} {s t : State} (h : Completes i s t) :
    t.out = s.out ∨ ∃ a : RegIndex, i = .prn a.byte ∧ t.out = s.out ++ [s.reg a] := by
  rcases h.control_cases with ⟨-, rfl⟩ | ⟨a, rfl, rfl⟩ | ⟨_, _, -, rfl⟩ | ⟨-, -, hout⟩
  · exact .inl rfl
  · exact .inr ⟨a, rfl, rfl⟩
  · exact .inl rfl
  · exact .inl hout

/-- Only `HALT` writes `RUN` without a fault (R23). -/
theorem Completes.run_cases {i : Instr} {s t : State} (h : Completes i s t) :
    (i = .halt ∧ t = s.halt) ∨ t.run = s.run := by
  rcases h.control_cases with hhalt | ⟨_, -, rfl⟩ | ⟨_, _, -, rfl⟩ | ⟨-, ⟨hrun, -⟩, -⟩
  · exact .inl hhalt
  · exact .inr rfl
  · exact .inr rfl
  · exact .inr hrun

/-- The code of a fault's cause is 1 to 5 (R24, R135). -/
theorem Fault.cause_code_range (f : Fault) : f.cause ≠ .none ∧ 1 ≤ f.cause.code.toNat ∧ f.cause.code.toNat ≤ 5 := by
  cases f <;> simp [Fault.cause, Cause.code]

/-! ## Running from another state with the same `pc` -/

/-- `u` differs from `s` by nothing the checks look at, apart from the flags: `pc` is the same, and `h`, which says
what the difference makes of a next state, turns a fault taken in `s` into the same fault taken in `u`. -/
structure CarriedBy (h : State → State) (s u : State) : Prop where
  pc : u.pc = s.pc
  takeFault : ∀ f, takeFault f u = h (takeFault f s)

section Carry

variable {h : State → State} {s u : State} (hk : CarriedBy h s u)
include hk

theorem conclude_carry {r r' : Except Fault State} (hr : r' = r.map h) :
    conclude u r' = mapNext h (conclude s r) := by
  subst hr
  cases r with
  | ok t => rfl
  | error f => exact congrArg Host.Outcome.next (hk.takeFault f)

theorem withRegPair_carry {a b : Byte} {effect effect' : RegIndex → RegIndex → Byte → State}
    (he : ∀ ra rb p, effect' ra rb p = h (effect ra rb p)) :
    conclude u (withRegPair a b u effect') = mapNext h (conclude s (withRegPair a b s effect)) := by
  refine conclude_carry hk ?_
  simp only [withRegPair, advance, hk.pc]
  cases checkReg a with
  | error f => rfl
  | ok ra =>
    cases checkReg b with
    | error f => rfl
    | ok rb =>
      cases pcPlus s.pc (1 + 2) with
      | error f => rfl
      | ok p => exact congrArg Except.ok (he ra rb p)

theorem regThenAdvance_carry {a : Byte} {n : Nat} {effect effect' : RegIndex → Byte → State}
    (he : ∀ ra p, effect' ra p = h (effect ra p)) :
    conclude u (do let ra ← checkReg a; let next ← advance u n; return effect' ra next) =
      mapNext h (conclude s (do let ra ← checkReg a; let next ← advance s n; return effect ra next)) := by
  refine conclude_carry hk ?_
  simp only [advance, hk.pc]
  cases checkReg a with
  | error f => rfl
  | ok ra =>
    cases pcPlus s.pc (1 + n) with
    | error f => rfl
    | ok p => exact congrArg Except.ok (he ra p)

theorem jumpTo_carry {a : Byte} (hj : ∀ ra, u.setPc (u.reg ra) = h (s.setPc (s.reg ra))) :
    conclude u (jumpTo a u) = mapNext h (conclude s (jumpTo a s)) := by
  refine conclude_carry hk ?_
  unfold jumpTo
  cases checkReg a with
  | error f => rfl
  | ok ra => exact congrArg Except.ok (hj ra)

theorem branch_carry {taken : Bool} {a : Byte} (hj : ∀ ra, u.setPc (u.reg ra) = h (s.setPc (s.reg ra)))
    (ha : ∀ p, u.setPc p = h (s.setPc p)) :
    conclude u (branch taken a u) = mapNext h (conclude s (branch taken a s)) := by
  cases taken with
  | true => exact jumpTo_carry hk hj
  | false =>
    refine conclude_carry hk ?_
    simp only [branch, advance, hk.pc]
    cases pcPlus s.pc (1 + 1) with
    | error f => rfl
    | ok p => exact congrArg Except.ok (ha p)

end Carry

/-! ## The flags -/

/-- An instruction other than `CMP` carries other flags along; `JEQ` and `JNE` need `E` to be the same (R20). -/
theorem exec_setFlags {i : Instr} {s : State} {f : Flags} (hi : ∀ a b, i ≠ .cmp a b)
    (he : ((∃ a, i = .jeq a) ∨ (∃ a, i = .jne a)) → f.e = s.fl.e) :
    exec i (s.setFlags f) = mapNext (fun t => t.setFlags f) (exec i s) := by
  have hk : CarriedBy (fun t => t.setFlags f) s (s.setFlags f) := ⟨rfl, fun _ => rfl⟩
  cases i
  case cmp a b => exact absurd rfl (hi a b)
  case add | mul => exact withRegPair_carry hk fun _ _ _ => rfl
  case ldi | prn | push | pop | call => exact regThenAdvance_carry hk fun _ _ => rfl
  case halt | ret => rfl
  case jmp => exact jumpTo_carry hk fun _ => rfl
  case jeq a =>
    have hE : takenJeq f = takenJeq s.fl := he (.inl ⟨a, rfl⟩)
    rw [exec, exec, execJeq, execJeq, State.setFlags_fl, hE]
    exact branch_carry hk (fun _ => rfl) fun _ => rfl
  case jne a =>
    have hE : takenJne f = takenJne s.fl := congrArg (!·) (he (.inr ⟨a, rfl⟩))
    rw [exec, exec, execJne, execJne, State.setFlags_fl, hE]
    exact branch_carry hk (fun _ => rfl) fun _ => rfl

/-- Settles O31: the writers of `FL` by what a completed instruction leaves alone, its readers by the commuting of
`exec` with `setFlags`. -/
theorem onlyCmpWritesAndOnlyJumpsReadFlags : Obligations.OnlyCmpWritesAndOnlyJumpsReadFlags := by
  refine ⟨fun i s t hi h => ?_, fun s a b hp => ?_, fun i s f hi he => exec_setFlags hi he, fun s f a b hp => ?_,
    fun s a hp hne => ⟨fun t u ht hu => ?_, fun t u ht hu => ?_⟩⟩
  · rcases exec_next h with ⟨f, rfl⟩ | hc
    · rfl
    · exact hc.fl_eq hi
  · exact ⟨_, exec_cmp_byte a b hp, compareFlags_oneSet _ _⟩
  · rw [exec_cmp_byte a b hp, exec_cmp_byte a b (s := s.setFlags f) hp]
    rfl
  · rw [exec_jeq_byte a (by exact hp)] at ht hu
    cases ht
    cases hu
    simpa using hne
  · rw [exec_jne_byte a (by exact hp)] at ht hu
    cases ht
    cases hu
    simpa using hne.symm

/-! ## The output trace -/

/-- The state with the values `o` emitted before those it has emitted. -/
def State.outAfter (o : List Byte) (s : State) : State := s.withOut (o ++ s.out)

@[simp] theorem State.outAfter_run (o : List Byte) (s : State) : (s.outAfter o).run = s.run := rfl
@[simp] theorem State.outAfter_emit (o : List Byte) (s : State) (v : Byte) :
    (s.outAfter o).emit v = (s.emit v).outAfter o := by
  simp [State.outAfter, State.emit, State.withOut]

/-- The instruction fetch does not read `OUT`. -/
@[simp] theorem fetchInstr_outAfter (ids : OpcodeIds) (o : List Byte) (s : State) :
    fetchInstr ids (s.outAfter o) = fetchInstr ids s := rfl

/-- An instruction carries earlier output along (R22). -/
theorem exec_outAfter (i : Instr) (o : List Byte) (s : State) :
    exec i (s.outAfter o) = mapNext (State.outAfter o) (exec i s) := by
  have hk : CarriedBy (State.outAfter o) s (s.outAfter o) := ⟨rfl, fun _ => rfl⟩
  cases i
  case add | mul | cmp => exact withRegPair_carry hk fun _ _ _ => rfl
  case prn =>
    exact regThenAdvance_carry hk fun ra p =>
      congrArg (fun t => State.setPc t p) (State.outAfter_emit o s (s.reg ra))
  case ldi | push | pop | call => exact regThenAdvance_carry hk fun _ _ => rfl
  case halt | ret => rfl
  case jmp => exact jumpTo_carry hk fun _ => rfl
  case jeq | jne => exact branch_carry hk (fun _ => rfl) fun _ => rfl

/-- A step carries earlier output along (R22). -/
theorem stepWith_outAfter (ids : OpcodeIds) (o : List Byte) (s : State) :
    stepWith ids (s.outAfter o) = mapNext (State.outAfter o) (stepWith ids s) := by
  simp only [stepWith, State.outAfter_run, fetchInstr_outAfter]
  cases s.run with
  | halted => rfl
  | running =>
    cases fetchInstr ids s with
    | ok i => exact exec_outAfter i o s
    | error f => rfl

/-- Settles O32: the writer of `OUT` by what a completed instruction leaves alone, the absence of a reader by the
commuting of a step with earlier output. -/
theorem outputIsAppendedByPrnAndNeverRead : Obligations.OutputIsAppendedByPrnAndNeverRead := by
  refine ⟨rfl, fun i s t h => ?_, fun ids s o => stepWith_outAfter ids o s⟩
  rcases exec_next h with ⟨f, rfl⟩ | hc
  · exact .inl rfl
  · exact hc.out_cases

/-! ## The end of a run -/

/-- Settles O33: a next state is a taken fault or a completion, and of the completions only `HALT` halts. -/
theorem runEndsByHaltOrByFault : Obligations.RunEndsByHaltOrByFault := by
  refine ⟨rfl, fun ids s t hrun hcause hstep hhalted => ?_, fun ids s t hhalted hstep => ?_, fun _ => rfl⟩
  · rcases (stepWith_next hstep).2 with ⟨f, rfl⟩ | ⟨i, hi, hc⟩
    · obtain ⟨hne, hlo, hhi⟩ := f.cause_code_range
      exact .inr ⟨⟨rfl, hne⟩, ⟨f, rfl⟩, hlo, hhi, rfl⟩
    · rcases hc.run_cases with ⟨rfl, rfl⟩ | hkeep
      · exact .inl ⟨⟨rfl, hcause⟩, hi, congrArg Cause.code hcause, rfl, fun _ => rfl, fun _ => rfl, rfl, rfl⟩
      · simp [hkeep, hrun] at hhalted
  · simpa [hhalted] using (stepWith_next hstep).1

/-! ## The registers after reset -/

/-- The register file after reset (R14). -/
theorem reset_reg (r : RegIndex) : State.reset.reg r = if r = 7 then 244 else 0 := by
  revert r
  decide

/-- Settles O36: the reset register file, and `PRN` of a register from it. -/
theorem resetRegisterValues : Obligations.ResetRegisterValues := by
  refine fun r => ⟨reset_reg r, _, exec_prn_byte r (by decide), rfl, ?_⟩
  exact congrArg (fun v => [v]) (reset_reg r)

end Sys2Proof.Machine

/-! SUPPORT. The statements about data memory and the instruction fetch: who writes and reads memory, which bytes a
fetch is made of, and that a fetch sees the store of a `PUSH` or `CALL`. -/

namespace Sys2Proof.Machine

/-! ## The stack instructions run on register operands -/

/-- With room for the advance, the checks of an instruction with one register operand and one operand byte pass. -/
theorem regThenAdvance_byte {s : State} (a : RegIndex) (hp : s.pc.toNat + 2 ≤ 255)
    (effect : RegIndex → Byte → State) :
    (do let ra ← checkReg a.byte; let next ← advance s 1; return effect ra next) =
      Except.ok (effect a (s.pc + 2)) := by
  have hn : advance s 1 = .ok (s.pc + 2) := advance_ok (by omega) hp
  simp [hn, bind, Except.bind, pure, Except.pure]

theorem exec_push_byte {s : State} (a : RegIndex) (hp : s.pc.toNat + 2 ≤ 255) :
    exec (.push a.byte) s = .next ((s.push fun u => u.reg a).setPc (s.pc + 2)) := by
  rw [exec, execPush, regThenAdvance_byte a hp fun ra p => (s.push fun u => u.reg ra).setPc p, conclude_ok]

theorem exec_pop_byte {s : State} (a : RegIndex) (hp : s.pc.toNat + 2 ≤ 255) :
    exec (.pop a.byte) s = .next (((s.setReg a (s.read s.sp)).incSp).setPc (s.pc + 2)) := by
  rw [exec, execPop, regThenAdvance_byte a hp fun ra p => ((s.setReg ra (s.read s.sp)).incSp).setPc p, conclude_ok]

theorem exec_call_byte {s : State} (a : RegIndex) (hp : s.pc.toNat + 2 ≤ 255) :
    exec (.call a.byte) s = .next ((s.push fun _ => s.pc + 2).setPc (s.decSp.reg a)) := by
  rw [exec, execCall, regThenAdvance_byte a hp fun ra p => (s.push fun _ => p).setPc (s.decSp.reg ra), conclude_ok]

/-- The pushed value, read back after the jump or the advance that ends `PUSH` and `CALL`. -/
theorem push_setPc_read_decSp {s : State} (g : State → Byte) (p : Byte) (hw : Memory.wf s.mem) :
    ((s.push g).setPc p).read s.decSp.sp = g s.decSp := by
  rw [State.setPc_read, State.decSp_sp, State.push_read_same g hw]

/-! ## The writers of memory -/

/-- Only `PUSH` and `CALL` write memory where they complete, and what they write is one push (R31). -/
theorem Completes.mem_cases {i : Instr} {s t : State} (h : Completes i s t) :
    t.mem = s.mem ∨ ∃ a g, (i = .push a ∨ i = .call a) ∧ t.mem = (s.push g).mem := by
  cases i <;> simp only [Completes] at h
  case push a =>
    obtain ⟨ra, -, -, rfl⟩ := h
    exact .inr ⟨a, fun u => u.reg ra, .inl rfl, rfl⟩
  case call a =>
    obtain ⟨_, -, -, rfl⟩ := h
    exact .inr ⟨a, fun _ => s.pc + 2, .inr rfl, rfl⟩
  all_goals refine .inl ?_
  case add | mul | cmp =>
    obtain ⟨_, _, -, -, -, rfl⟩ := h
    rfl
  case ldi | prn | pop =>
    obtain ⟨_, -, -, rfl⟩ := h
    rfl
  case halt | ret =>
    subst h
    rfl
  case jmp =>
    obtain ⟨_, -, rfl⟩ := h
    rfl
  case jeq | jne => rcases h with ⟨-, _, -, rfl⟩ | ⟨-, -, rfl⟩ <;> rfl

/-- What an instruction makes of memory, whether it completes or faults. -/
theorem exec_mem_cases {i : Instr} {s t : State} (h : exec i s = .next t) :
    t.mem = s.mem ∨ ∃ a g, (i = .push a ∨ i = .call a) ∧ t.mem = (s.push g).mem := by
  rcases exec_next h with ⟨f, rfl⟩ | hc
  · exact .inl rfl
  · exact hc.mem_cases

/-- Two states with the same memory read the same in every cell. -/
theorem read_congr {s t : State} (h : t.mem = s.mem) (addr : Byte) : t.read addr = s.read addr :=
  congrArg (Memory.get addr.toNat) h

/-- An instruction writes no cell but the one at the decremented stack pointer (R31). -/
theorem exec_sameMemBut {i : Instr} {s t : State} (h : exec i s = .next t) : SameMemBut s.decSp.sp s t := by
  intro other hne
  rw [State.decSp_sp] at hne
  rcases exec_mem_cases h with hm | ⟨_, g, -, hm⟩
  · exact read_congr hm other
  · exact (read_congr hm other).trans (State.push_read_ne s g hne)

/-! ## The readers of memory -/

/-- Apart from what it leaves in memory, an instruction does the same with other contents of memory; `POP` and `RET`
need the cell at the stack pointer to be the same (R31). Both runs are compared with the one on empty memory. -/
theorem exec_withMem {i : Instr} {s : State} {m : Memory}
    (hr : (∃ a, i = .pop a) ∨ i = .ret → (s.withMem m).read s.sp = s.read s.sp) :
    mapNext (fun t => t.withMem []) (exec i (s.withMem m)) = mapNext (fun t => t.withMem []) (exec i s) := by
  have hm : CarriedBy (fun t => t.withMem []) (s.withMem m) (s.withMem []) := ⟨rfl, fun _ => rfl⟩
  have hs : CarriedBy (fun t => t.withMem []) s (s.withMem []) := ⟨rfl, fun _ => rfl⟩
  cases i
  case add | mul | cmp =>
    exact (withRegPair_carry hm fun _ _ _ => rfl).symm.trans (withRegPair_carry hs fun _ _ _ => rfl)
  case ldi | prn | push | call =>
    exact (regThenAdvance_carry hm fun _ _ => rfl).symm.trans (regThenAdvance_carry hs fun _ _ => rfl)
  case pop a =>
    have hcell := hr (.inl ⟨a, rfl⟩)
    exact (regThenAdvance_carry hm fun _ _ => rfl).symm.trans
      (regThenAdvance_carry hs fun ra p =>
        congrArg (fun v => (((s.setReg ra v).incSp).setPc p).withMem []) hcell)
  case halt => rfl
  case ret =>
    have hcell := hr (.inr rfl)
    exact congrArg (fun v => Host.Outcome.next (((s.setPc v).incSp).withMem [])) hcell
  case jmp => exact (jumpTo_carry hm fun _ => rfl).symm.trans (jumpTo_carry hs fun _ => rfl)
  case jeq | jne =>
    exact (branch_carry hm (fun _ => rfl) fun _ => rfl).symm.trans (branch_carry hs (fun _ => rfl) fun _ => rfl)

/-! ## The instruction fetch -/

/-- A fetch of the byte `k` places after `pc` reads the cell at that address. -/
theorem fetch_at {s : State} {k : Nat} {addr : Byte} (hk : k ≤ 2) (h : s.pc.toNat + k = addr.toNat) :
    s.fetch k = .ok (s.read addr) := by
  have hle : s.pc.toNat + k ≤ 255 := by omega
  have haddr : s.pc + BitVec.ofNat 8 k = addr := BitVec.eq_of_toNat_eq ((pcNext_toNat hle).trans h)
  rw [fetch_ok (by omega) hle, haddr]

/-- The instruction byte is the byte fetched 0 places after `pc`. -/
theorem fetch_zero (s : State) : s.fetch 0 = .ok (s.read s.pc) := fetch_at (by omega) rfl

/-- Decoding asks for operand bytes 1 and 2 alone. -/
theorem decodeWith_congr {ε : Type} {operand operand' : Nat → Except ε Byte} (ids : OpcodeIds)
    (reject : DispatchFault → ε) (ir : Byte) (h1 : operand 1 = operand' 1) (h2 : operand 2 = operand' 2) :
    decodeWith ids reject operand ir = decodeWith ids reject operand' ir := by
  simp only [decodeWith, h1, h2]

/-- States with the same `pc` and the same code bytes fetch the same bytes, or take the same fault. -/
theorem fetch_congr {s u : State} (hpc : u.pc = s.pc) (hcode : u.codeBytes = s.codeBytes) {k : Nat} (hk : k ≤ 2) :
    u.fetch k = s.fetch k := by
  rcases Nat.lt_or_ge 255 (s.pc.toNat + k) with h | h
  · rw [fetch_error (by omega) h, fetch_error (s := u) (by omega) (hpc ▸ h), hpc]
  · simp only [State.codeBytes, hpc] at hcode
    have hread : u.read (s.pc + BitVec.ofNat 8 k) = s.read (s.pc + BitVec.ofNat 8 k) :=
      List.map_inj_left.mp hcode k (by simp; omega)
    rw [fetch_ok (by omega) h, fetch_ok (s := u) (by omega) (hpc ▸ h), hpc, hread]

/-- The instruction fetched depends on the bytes at `pc` and after it alone (R31). -/
theorem fetchInstr_congr (ids : OpcodeIds) {s u : State} (hpc : u.pc = s.pc) (hcode : u.codeBytes = s.codeBytes) :
    fetchInstr ids u = fetchInstr ids s := by
  have hir : u.read u.pc = s.read s.pc := by
    simpa only [fetch_zero, Except.ok.injEq] using fetch_congr hpc hcode (k := 0) (by omega)
  rw [fetchInstr, fetchInstr, hir]
  exact decodeWith_congr ids _ _ (fetch_congr hpc hcode (by omega)) (fetch_congr hpc hcode (by omega))

/-! ## The obligations -/

/-- Settles O34: the writers of memory by what each instruction makes of it, the readers by running each instruction
on other contents of memory. -/
theorem onlyStackInstructionsTouchDataMemory : Obligations.OnlyStackInstructionsTouchDataMemory := by
  refine ⟨fun s a hw hp => ⟨?push, ?call, ?pop, ?ret⟩, fun i s t h hpush hcall => ?_, fun i s t h => exec_sameMemBut h,
    fun i s m hpop hret => exec_withMem ?_, fun i s m _ hcell => exec_withMem fun _ => hcell,
    fun ids s u hpc hcode => fetchInstr_congr ids hpc hcode⟩
  case push => exact ⟨_, exec_push_byte a hp, push_setPc_read_decSp _ _ hw⟩
  case call => exact ⟨_, exec_call_byte a hp, push_setPc_read_decSp _ _ hw⟩
  case pop =>
    refine ⟨_, exec_pop_byte a hp, fun hne => ?_⟩
    rw [State.setPc_reg, State.incSp_reg, if_neg hne, State.setReg_reg_same]
  case ret => exact ⟨_, rfl, rfl⟩
  · rcases exec_mem_cases h with hm | ⟨a, _, rfl | rfl, -⟩
    · exact hm
    · exact absurd rfl (hpush a)
    · exact absurd rfl (hcall a)
  · rintro (⟨a, rfl⟩ | rfl)
    · exact absurd rfl (hpop a)
    · exact absurd rfl hret

/-- Settles O45: a fetch reads the cell it names, and that cell holds the pushed value. -/
theorem storeIsSeenByTheNextFetch : Obligations.StoreIsSeenByTheNextFetch := by
  refine ⟨fun s t u a k hw hp h hsame hk hat => ?_, fun s t u a k hw hp h hsame hk hat => ?_, fun ids t v hv => ?_⟩
  · rw [exec_push_byte a hp] at h
    cases h
    rw [fetch_at hk hat, hsame, push_setPc_read_decSp _ _ hw]
  · rw [exec_call_byte a hp] at h
    cases h
    rw [fetch_at hk hat, hsame, push_setPc_read_decSp _ _ hw]
  · rw [fetch_zero] at hv
    cases hv
    rfl

end Sys2Proof.Machine

/-! SUPPORT. The statements about the instruction byte and the length of an instruction: the bits of a field as a
number, what a successful decoding says of the bytes, and the number of bytes of an encoding. -/

namespace Sys2Proof

/-! ## The fields of the instruction byte -/

/-- A bit of a byte, read off the byte as a number. -/
theorem getLsbD_iff_div_mod (v : Byte) (k : Nat) : v.getLsbD k = true ↔ v.toNat / 2 ^ k % 2 = 1 := by
  rw [← BitVec.testBit_toNat, Nat.testBit_eq_decide_div_mod_eq, decide_eq_true_iff]

/-- Settles O3: each field is a bit or a run of bits of the byte, so a quotient and remainder by powers of two. -/
theorem decoderSplitsEveryByte : Obligations.DecoderSplitsEveryByte := by
  intro ir
  refine ⟨?n, getLsbD_iff_div_mod ir 5, getLsbD_iff_div_mod ir 4, ?opc⟩
  case n =>
    have hn : (splitByte ir).n.toNat = ir.toNat / 2 ^ 6 % 2 ^ 2 := by
      rw [splitByte, BitVec.extractLsb'_toNat, Nat.shiftRight_eq_div_pow]
    have hir : ir.toNat < 256 := ir.isLt
    omega
  case opc => exact BitVec.extractLsb'_toNat 0 4 ir

/-! ## The length of an encoding -/

@[simp] theorem Op.build_op (op : Op) (a b : Byte) : (op.build a b).op = op := by cases op <;> rfl

theorem Instr.operands_length (i : Instr) : i.operands.length = i.op.arity := by cases i <;> rfl

theorem encode_length (ids : OpcodeIds) (i : Instr) : (encode ids i).length = 1 + i.op.arity := by
  rw [encode, List.length_cons, i.operands_length, Nat.add_comm]

/-- The count field of a canonical first byte is the operation's arity (R48, R68). -/
theorem Op.firstByte_count (ids : OpcodeIds) (op : Op) : (splitByte (op.firstByte ids)).n.toNat = op.arity := by
  have hlt : op.arity < 2 ^ 2 := Nat.lt_of_le_of_lt (arity_le_two op) (by decide)
  rw [Op.firstByte, splitByte_joinByte, BitVec.toNat_ofNat, Nat.mod_eq_of_lt hlt]

/-! ## What a successful decoding says of the bytes -/

/-- `decodeWith` answers an instruction only for a byte that names its operation, with every operand byte it takes
in place; an operand byte the operation does not take is unconstrained. -/
theorem decodeWith_ok {ε : Type} {ids : OpcodeIds} {reject : DispatchFault → ε} {operand : Nat → Except ε Byte}
    {ir : Byte} {i : Instr} (h : decodeWith ids reject operand ir = .ok i) :
    ∃ op a b, identify ids ir = .ok op ∧ i = op.build a b ∧
      (1 ≤ op.arity → operand 1 = .ok a) ∧ (2 ≤ op.arity → operand 2 = .ok b) := by
  cases hid : identify ids ir with
  | error e => simp [decodeWith_reject hid] at h
  | ok op =>
    simp only [decodeWith, hid] at h
    split at h
    next ha =>
      cases h
      exact ⟨op, 0, 0, rfl, rfl, by omega, by omega⟩
    next ha =>
      split at h
      · cases h
      next a h1 =>
        cases h
        exact ⟨op, a, 0, rfl, rfl, fun _ => h1, by omega⟩
    next =>
      split at h
      · cases h
      next a h1 =>
        split at h
        · cases h
        next b h2 =>
          cases h
          exact ⟨op, a, b, rfl, rfl, fun _ => h1, fun _ => h2⟩

/-- Operand byte `k` is there only where the bytes reach past it. -/
theorem lt_length_of_operandAt_ok {bytes : List Byte} {k : Nat} {v : Byte} (h : operandAt bytes k = .ok v) :
    k < bytes.length := by
  unfold operandAt at h
  split at h
  next hk => exact (List.getElem?_eq_some_iff.mp hk).1
  · cases h

/-- Bytes that decode name the operation in the first byte, hold its operand bytes, and leave the bytes after them. -/
theorem decode_ok {ids : OpcodeIds} {ir : Byte} {tail rest : List Byte} {i : Instr}
    (h : decode ids (ir :: tail) = .ok (i, rest)) :
    identify ids ir = .ok i.op ∧ i.op.arity ≤ tail.length ∧ rest = tail.drop i.op.arity := by
  simp only [decode] at h
  split at h
  · cases h
  next hi =>
    cases h
    obtain ⟨op, a, b, hid, rfl, h1, h2⟩ := decodeWith_ok hi
    have hone : 1 ≤ op.arity → 1 < (ir :: tail).length := lt_length_of_operandAt_ok ∘ h1
    have htwo : 2 ≤ op.arity → 2 < (ir :: tail).length := lt_length_of_operandAt_ok ∘ h2
    have harity := arity_le_two op
    rw [Op.build_op, Nat.add_comm, List.drop_succ_cons]
    rw [List.length_cons] at hone htwo
    exact ⟨hid, by omega, rfl⟩

/-- Settles O8: decoding drops the first byte and as many bytes as the arity, which is the count field of both the
decoded and the encoded first byte; `HALT`, `PRN` and `ADD` have the three lengths. -/
theorem lengthIsOnePlusOperandCount : Obligations.LengthIsOnePlusOperandCount := by
  refine ⟨fun ids ir tail rest i h => ?decoded, fun ids i => ?encoded, fun ids k hlo hhi => ?lengths⟩
  case decoded =>
    obtain ⟨hid, hlen, rfl⟩ := decode_ok h
    rw [(identify_ok hid).2, List.length_cons, List.length_drop]
    omega
  case encoded => rw [encode_length, Op.firstByte_count]
  case lengths =>
    have hwitness : ∃ i : Instr, 1 + i.op.arity = k := by
      obtain rfl | rfl | rfl : k = 1 ∨ k = 2 ∨ k = 3 := by omega
      · exact ⟨.halt, rfl⟩
      · exact ⟨.prn 0, rfl⟩
      · exact ⟨.add 0 0, rfl⟩
    simpa only [encode_length] using hwitness

end Sys2Proof

/-! SUPPORT. The statement about dispatch: the three tables as one table per group, dispatch as a look-up in the table
of the selected group, and what a look-up that succeeds or fails says of the identifier. -/

namespace Sys2Proof.Machine

/-! ## The table of a group -/

/-- The operation of a group with this identifier: the ALU operations, table A and table B as one function (R67). -/
def groupOp? (ids : OpcodeIds) : Group → Nibble → Option Op
  | .alu => aluOp? ids
  | .tableA => tableA? ids
  | .tableB => tableB? ids

/-- Under an opcode map that R52 admits, a group's table and the identifiers of its operations are inverse. -/
theorem groupOp?_eq_some_iff {ids : OpcodeIds} (h : ids.Distinct) {g : Group} {opc : Nibble} {op : Op} :
    groupOp? ids g opc = some op ↔ g = op.group ∧ opc = ids.of op := by
  constructor
  · intro hfound
    have hentry : op.group = g ∧ ids.of op = opc := by
      cases g with
      | alu => exact aluOp?_some hfound
      | tableA => exact tableA?_some hfound
      | tableB => exact tableB?_some hfound
    exact ⟨hentry.1.symm, hentry.2.symm⟩
  · rintro ⟨hg, rfl⟩
    cases g with
    | alu => exact aluOp?_of h hg.symm
    | tableA => exact tableA?_of h hg.symm
    | tableB => exact tableB?_of h hg.symm

/-- A group's table misses exactly the identifiers of none of its operations, whatever the map. -/
theorem groupOp?_eq_none_iff {ids : OpcodeIds} {g : Group} {opc : Nibble} :
    groupOp? ids g opc = none ↔ ∀ op : Op, op.group = g → opc ≠ ids.of op := by
  cases g with
  | alu => exact aluOp?_none
  | tableA => exact tableA?_none
  | tableB => exact tableB?_none

/-! ## Dispatch as a look-up in the selected group's table -/

/-- With `alu = 1` the ALU group is selected, whatever `spc` is (R56). -/
theorem selectedGroup_of_alu {f : Fields} (h : f.alu = true) : selectedGroup f = .alu := by
  simp [selectedGroup, h]

/-- The fault of the path a byte takes, when that path finds no operation (R67). -/
def missFault (ir : Byte) : DispatchFault :=
  if (splitByte ir).alu then .unsupportedAluOp ir else .unknownOpcode ir

theorem missFault_eq_unsupportedAluOp_iff {ir : Byte} :
    missFault ir = .unsupportedAluOp ir ↔ (splitByte ir).alu = true := by
  cases h : (splitByte ir).alu <;> simp [missFault, h]

theorem missFault_eq_unknownOpcode_iff {ir : Byte} :
    missFault ir = .unknownOpcode ir ↔ (splitByte ir).alu = false := by
  cases h : (splitByte ir).alu <;> simp [missFault, h]

/-- Dispatch looks the identifier up in the table of the selected group, and a miss is the fault of the path. -/
theorem dispatch_eq_elim (ids : OpcodeIds) (ir : Byte) :
    dispatch ids ir =
      (groupOp? ids (selectedGroup (splitByte ir)) (splitByte ir).opc).elim (.error (missFault ir)) .ok := by
  cases halu : (splitByte ir).alu with
  | true =>
    simp only [dispatch, selectedGroup, missFault, groupOp?, halu, if_true]
    cases aluOp? ids (splitByte ir).opc <;> rfl
  | false =>
    cases hspc : (splitByte ir).spc with
    | true =>
      simp only [dispatch, selectedGroup, missFault, groupOp?, halu, hspc, if_true, Bool.false_eq_true, if_false]
      cases tableB? ids (splitByte ir).opc <;> rfl
    | false =>
      simp only [dispatch, selectedGroup, missFault, groupOp?, halu, hspc, Bool.false_eq_true, if_false]
      cases tableA? ids (splitByte ir).opc <;> rfl

theorem dispatch_eq_ok_iff {ids : OpcodeIds} {ir : Byte} {op : Op} :
    dispatch ids ir = .ok op ↔ groupOp? ids (selectedGroup (splitByte ir)) (splitByte ir).opc = some op := by
  rw [dispatch_eq_elim]
  cases groupOp? ids (selectedGroup (splitByte ir)) (splitByte ir).opc <;> simp

theorem dispatch_eq_error_iff {ids : OpcodeIds} {ir : Byte} {e : DispatchFault} :
    dispatch ids ir = .error e ↔
      missFault ir = e ∧ groupOp? ids (selectedGroup (splitByte ir)) (splitByte ir).opc = none := by
  rw [dispatch_eq_elim]
  cases groupOp? ids (selectedGroup (splitByte ir)) (splitByte ir).opc <;> simp

/-- Settles O4: dispatch is a look-up in the selected group's table, which answers an operation exactly at its
identifier and misses exactly the identifiers of none; the path taken names the fault of a miss. -/
theorem dispatchSelectsByGroupAndIdentifier : Obligations.DispatchSelectsByGroupAndIdentifier := by
  refine fun ids ir hdistinct => ⟨fun op => ?operation, ?unsupported, ?unknown⟩
  case operation => rw [dispatch_eq_ok_iff, groupOp?_eq_some_iff hdistinct]
  case unsupported =>
    rw [dispatch_eq_error_iff, missFault_eq_unsupportedAluOp_iff]
    refine and_congr_right fun halu => ?_
    rw [selectedGroup_of_alu halu, groupOp?_eq_none_iff]
  case unknown => rw [dispatch_eq_error_iff, missFault_eq_unknownOpcode_iff, groupOp?_eq_none_iff]

end Sys2Proof.Machine

/-! SUPPORT. The rules of the ALU group: the fetch of an instruction whose first byte names it, the checks and the
completion that `ADD`, `MUL` and `CMP` share, and the effect of each. -/

namespace Sys2Proof.Machine

/-! ## The fetch of a named operation -/

/-- Under an opcode map that R52 admits, a byte that names an operation passes dispatch and the arity check. -/
theorem identify_of_names {ids : OpcodeIds} {ir : Byte} {op : Op} (hd : ids.Distinct) (h : Names ids ir op) :
    identify ids ir = .ok op := by
  obtain ⟨hcount, hopc, hgroup⟩ := h
  have hdispatch : dispatch ids ir = .ok op :=
    dispatch_eq_ok_iff.mpr ((groupOp?_eq_some_iff hd).mpr ⟨hgroup, hopc⟩)
  simp only [identify, hdispatch, hcount, if_true]

/-- The fetch part of every instruction's rule: the named operation is built from the bytes after `pc` (R69, R78). -/
theorem runsAs_build (op : Op) : RunsAs op op.build := by
  intro ids s hd hrun hnames
  have hfetch := fetchInstr_eq ids s
  rw [identify_of_names hd hnames] at hfetch
  by_cases hp : s.pc.toNat + op.arity ≤ 255
  · simp only [stepWith, hrun, hfetch, if_pos hp]
  · simp only [stepWith, hrun, hfetch, if_neg hp]

/-! ## The checks and the completion of an instruction with two register operands -/

/-- The meaning of `mk a b` is the checks of `withRegPair` and then `effect`. -/
def RunsRegPair (mk : Byte → Byte → Instr) (effect : State → RegIndex → RegIndex → Byte → State) : Prop :=
  ∀ (a b : Byte) (s : State), exec (mk a b) s = conclude s (withRegPair a b s (effect s))

namespace RunsRegPair

variable {mk : Byte → Byte → Instr} {effect : State → RegIndex → RegIndex → Byte → State}

/-- Index `a` is checked first. -/
theorem faults_first (h : RunsRegPair mk effect) (s : State) (a b : Byte) (ha : 7 < a.toNat) :
    Faults (mk a b) s (.regRangeFault a) := by
  have hpair : withRegPair a b s (effect s) = .error (.regRangeFault a) := by
    rw [withRegPair, checkReg_error ha]
    rfl
  rw [Faults, h, hpair, conclude_error]

/-- Index `b` is checked once `a` names a register, whatever `pc` is. -/
theorem faults_second (h : RunsRegPair mk effect) (s : State) (a : RegIndex) (b : Byte) (hb : 7 < b.toNat) :
    Faults (mk a.byte b) s (.regRangeFault b) := by
  have hpair : withRegPair a.byte b s (effect s) = .error (.regRangeFault b) := by
    rw [withRegPair, checkReg_byte, checkReg_error hb]
    rfl
  rw [Faults, h, hpair, conclude_error]

/-- The advance is checked last. -/
theorem faults_advance (h : RunsRegPair mk effect) (s : State) (a b : RegIndex) (hp : 255 < s.pc.toNat + 3) :
    Faults (mk a.byte b.byte) s (.memRangeFault (BitVec.ofNat 9 (s.pc.toNat + 3))) := by
  have hpair : withRegPair a.byte b.byte s (effect s) =
      .error (.memRangeFault (BitVec.ofNat 9 (s.pc.toNat + 3))) := by
    rw [withRegPair, checkReg_byte, checkReg_byte, advance_error (by omega) hp]
    rfl
  rw [Faults, h, hpair, conclude_error]

theorem completes (h : RunsRegPair mk effect) (s : State) (a b : RegIndex) (hp : s.pc.toNat + 3 ≤ 255) :
    exec (mk a.byte b.byte) s = .next (effect s a b (s.pc + 3)) := by
  rw [h, withRegPair_byte a b hp, conclude_ok]

end RunsRegPair

/-! ## The three instructions -/

/-- A register write and an advance leave every other register, memory and the control state alone. -/
theorem setReg_setPc_frame (s : State) (d : RegIndex) (v p : Byte) :
    SameRegsBut d s ((s.setReg d v).setPc p) ∧ SameMem s ((s.setReg d v).setPc p) ∧
      SameControl s ((s.setReg d v).setPc p) :=
  ⟨fun _ hne => s.setReg_reg_ne v hne, fun _ => rfl, rfl, ⟨rfl, rfl⟩, rfl⟩

theorem runsRegPair_add :
    RunsRegPair .add fun s ra rb next => (s.setReg ra (s.reg ra + s.reg rb)).setPc next := fun _ _ _ => rfl

theorem runsRegPair_mul :
    RunsRegPair .mul fun s ra rb next => (s.setReg ra (s.reg ra * s.reg rb)).setPc next := fun _ _ _ => rfl

theorem runsRegPair_cmp :
    RunsRegPair .cmp fun s ra rb next => (s.setFlags (compareFlags (s.reg ra) (s.reg rb))).setPc next :=
  fun _ _ _ => rfl

/-- Settles O18: the shared fetch and checks, the byte sum in the destination, and the frame of a register write. -/
theorem addRule : Obligations.AddRule := by
  refine ⟨runsAs_build .add, runsRegPair_add.faults_first, runsRegPair_add.faults_second,
    runsRegPair_add.faults_advance, fun s a b hp => ⟨_, runsRegPair_add.completes s a b hp, ?sum, pcNext_toNat hp,
      setReg_setPc_frame s a _ _⟩⟩
  rw [State.setPc_reg, State.setReg_reg_same, BitVec.toNat_add]

/-- Settles O19: the shared fetch and checks, the low byte of the product in the destination, and the frame of a
register write. -/
theorem mulRule : Obligations.MulRule := by
  refine ⟨runsAs_build .mul, runsRegPair_mul.faults_first, runsRegPair_mul.faults_second,
    runsRegPair_mul.faults_advance, fun s a b hp => ⟨_, runsRegPair_mul.completes s a b hp, ?product, pcNext_toNat hp,
      setReg_setPc_frame s a _ _⟩⟩
  rw [State.setPc_reg, State.setReg_reg_same, BitVec.toNat_mul]

/-- Settles O20: the shared fetch and checks, and the comparison's flags, each by its own test; a flag write and an
advance change nothing else. -/
theorem cmpRule : Obligations.CmpRule := by
  refine ⟨runsAs_build .cmp, runsRegPair_cmp.faults_first, runsRegPair_cmp.faults_second,
    runsRegPair_cmp.faults_advance, fun s a b hp => ?_⟩
  obtain ⟨he, hg, hl⟩ := compareFlags_iff (s.reg a) (s.reg b)
  exact ⟨_, exec_cmp_byte a b hp, he, hg, hl, pcNext_toNat hp, fun _ => rfl, fun _ => rfl,
    ⟨rfl, rfl⟩, rfl⟩

end Sys2Proof.Machine

/-! SUPPORT. The rules of the flow-neutral group: the checks and the completion of an instruction with one register
operand and an advance (R91, R92; the stack group has the same shape), and the effects of `LDI` and `PRN`. -/

namespace Sys2Proof.Machine

/-! ## The checks and the completion of an instruction with one register operand and an advance -/

/-- The meaning of `mk a` is the index test of `a`, the advance past `n` operand bytes, and then `effect`. -/
def RunsRegThenAdvance (n : Nat) (mk : Byte → Instr) (effect : State → RegIndex → Byte → State) : Prop :=
  ∀ (a : Byte) (s : State), exec (mk a) s =
    conclude s (do let ra ← checkReg a; let next ← advance s n; return effect s ra next)

namespace RunsRegThenAdvance

variable {n : Nat} {mk : Byte → Instr} {effect : State → RegIndex → Byte → State}

/-- The index is checked first, whatever `pc` is. -/
theorem faults_index (h : RunsRegThenAdvance n mk effect) (s : State) (a : Byte) (ha : 7 < a.toNat) :
    Faults (mk a) s (.regRangeFault a) := by
  rw [Faults, h, checkReg_error ha]
  rfl

/-- The advance is checked once `a` names a register. -/
theorem faults_advance (h : RunsRegThenAdvance n mk effect) (hn : n ≤ 2) (s : State) (a : RegIndex)
    (hp : 255 < s.pc.toNat + (1 + n)) :
    Faults (mk a.byte) s (.memRangeFault (BitVec.ofNat 9 (s.pc.toNat + (1 + n)))) := by
  rw [Faults, h, checkReg_byte, advance_error hn hp]
  rfl

theorem completes (h : RunsRegThenAdvance n mk effect) (hn : n ≤ 2) (s : State) (a : RegIndex)
    (hp : s.pc.toNat + (1 + n) ≤ 255) :
    exec (mk a.byte) s = .next (effect s a (s.pc + BitVec.ofNat 8 (1 + n))) := by
  rw [h, checkReg_byte, advance_ok hn hp]
  rfl

end RunsRegThenAdvance

/-! ## The two instructions -/

theorem runsRegThenAdvance_ldi (imm : Byte) :
    RunsRegThenAdvance 2 (.ldi · imm) fun s ra next => (s.setReg ra imm).setPc next := fun _ _ => rfl

theorem runsRegThenAdvance_prn :
    RunsRegThenAdvance 1 .prn fun s ra next => (s.emit (s.reg ra)).setPc next := fun _ _ => rfl

/-- Settles O22: the shared fetch and checks, the immediate in the destination, and the frame of a register write. -/
theorem ldiRule : Obligations.LdiRule := by
  have hldi := runsRegThenAdvance_ldi
  refine ⟨runsAs_build .ldi, fun s a imm => (hldi imm).faults_index s a,
    fun s a imm => (hldi imm).faults_advance (by decide) s a,
    fun s a imm hp => ⟨_, (hldi imm).completes (by decide) s a hp, ?immediate, pcNext_toNat hp,
      setReg_setPc_frame s a _ _⟩⟩
  rw [State.setPc_reg, State.setReg_reg_same]

/-- Settles O23: the shared fetch and checks, the register's value appended to `OUT`; an output and an advance change
nothing else. -/
theorem prnRule : Obligations.PrnRule := by
  have hprn := runsRegThenAdvance_prn
  exact ⟨runsAs_build .prn, hprn.faults_index, hprn.faults_advance (by decide),
    fun s a hp => ⟨_, hprn.completes (by decide) s a hp, rfl, pcNext_toNat hp, rfl, ⟨rfl, rfl⟩,
      fun _ => rfl, fun _ => rfl⟩⟩

end Sys2Proof.Machine

/-! SUPPORT. The rules of `RET` and `JMP`: the two outcomes of an unconditional transfer, and what a jump and the end
of a pop leave alone. -/

namespace Sys2Proof.Machine

/-! ## The frames of a jump and of a stack-pointer increment -/

/-- A jump leaves every register, memory and the control state alone. -/
theorem setPc_frame (s : State) (p : Byte) :
    SameRegs s (s.setPc p) ∧ SameMem s (s.setPc p) ∧ SameControl s (s.setPc p) :=
  ⟨s.setPc_reg p, fun _ => rfl, rfl, ⟨rfl, rfl⟩, rfl⟩

/-- A jump and a stack-pointer increment leave registers 0 to 6, memory and the control state alone. -/
theorem setPc_incSp_frame (s : State) (p : Byte) :
    SameRegsBut spIndex s (s.setPc p).incSp ∧ SameMem s (s.setPc p).incSp ∧ SameControl s (s.setPc p).incSp := by
  refine ⟨fun r hne => ?_, (s.setPc p).incSp_read, rfl, ⟨rfl, rfl⟩, rfl⟩
  rw [State.incSp_reg, if_neg hne, State.setPc_reg]

/-! ## The unconditional transfer -/

theorem jumpTo_error (s : State) {a : Byte} (ha : 7 < a.toNat) : jumpTo a s = .error (.regRangeFault a) := by
  rw [jumpTo, checkReg_error ha]
  rfl

theorem jumpTo_byte (s : State) (a : RegIndex) : jumpTo a.byte s = .ok (s.setPc (s.reg a)) := by
  rw [jumpTo, checkReg_byte]
  rfl

/-! ## The two instructions -/

/-- Settles O27: the shared fetch, and the meaning of `RET`, which checks nothing; the increment is taken modulo 256
and is the one register write. -/
theorem retRule : Obligations.RetRule := by
  refine ⟨runsAs_build .ret, fun s => ⟨(s.setPc (s.read s.sp)).incSp, rfl, State.incSp_pc _, ?increment,
    setPc_incSp_frame s _⟩⟩
  have hsp : (s.setPc (s.read s.sp)).incSp.sp = s.sp + 1#8 := State.incSp_sp _
  rw [hsp, BitVec.toNat_add, BitVec.toNat_ofNat]

/-- Settles O28: the shared fetch, and the two outcomes of the transfer: the index fault, or a jump at any `pc`. -/
theorem jmpRule : Obligations.JmpRule := by
  refine ⟨runsAs_build .jmp, fun s a ha => ?fault, fun s a => ⟨s.setPc (s.reg a), ?jump, rfl, setPc_frame s _⟩⟩
  case fault => rw [Faults, exec, execJmp, jumpTo_error s ha, conclude_error]
  case jump => rw [exec, execJmp, jumpTo_byte, conclude_ok]

end Sys2Proof.Machine

/-! SUPPORT. The statement about the dispatch lines: the select's search of all thirteen operations as the look-up in
the selected group's table, and the four things a byte can be, each with its one true line. -/

namespace Sys2Proof.Machine

/-! ## The search of the select -/

/-- The search takes the first line, where it is the group's and has the identifier, and else goes on. -/
theorem find?_line_cons (ids : OpcodeIds) (g : Group) (opc : Nibble) (op : Op) (ops : List Op) :
    ((op :: ops).find? fun o => o.group = g ∧ ids.of o = opc) =
      if op.group = g ∧ opc = ids.of op then some op else ops.find? fun o => o.group = g ∧ ids.of o = opc := by
  by_cases h : op.group = g ∧ ids.of op = opc
  · rw [List.find?_cons_of_pos (by simpa using h), if_pos ⟨h.1, h.2.symm⟩]
  · rw [List.find?_cons_of_neg (by simpa using h), if_neg fun h' => h ⟨h'.1, h'.2.symm⟩]

/-- The search of the thirteen lines is the look-up in the group's table: the lines stand in the order of the tables,
so this needs no condition on the map. -/
theorem allOps_find?_eq_groupOp? (ids : OpcodeIds) (g : Group) (opc : Nibble) :
    (allOps.find? fun op => op.group = g ∧ ids.of op = opc) = groupOp? ids g opc := by
  simp only [allOps, find?_line_cons, List.find?_nil]
  cases g with
  | alu => simp [Op.group, OpcodeIds.of, groupOp?, aluOp?]
  | tableA => simp [Op.group, OpcodeIds.of, groupOp?, tableA?]
  | tableB => simp [Op.group, OpcodeIds.of, groupOp?, tableB?]

/-- When the selected group's table has the identifier, the count decides between the select and `err_arity`. -/
theorem dispatchLines_of_found {ids : OpcodeIds} {f : Fields} {op : Op}
    (h : groupOp? ids (selectedGroup f) f.opc = some op) :
    dispatchLines ids f =
      if f.n.toNat = op.arity then ⟨some op, false, false, false⟩ else ⟨none, false, false, true⟩ := by
  rw [dispatchLines, allOps_find?_eq_groupOp?, h]
  by_cases hcount : f.n.toNat = op.arity
  · simp [hcount]
  · simp [hcount, Ne.symm hcount]

/-- When it has not, the path decides between `err_alu_op` and `err_opcode`, whatever the count. -/
theorem dispatchLines_of_missed {ids : OpcodeIds} {f : Fields} (h : groupOp? ids (selectedGroup f) f.opc = none) :
    dispatchLines ids f = ⟨none, f.alu, !f.alu, false⟩ := by
  rw [dispatchLines, allOps_find?_eq_groupOp?, h]
  simp

/-! ## The four things a byte can be -/

/-- What dispatch and the arity check say of a byte (R67, R68), with the lines of each answer (R125). -/
theorem identify_dispatchLines_cases (ids : OpcodeIds) (ir : Byte) :
    (∃ op, identify ids ir = .ok op ∧ dispatchLines ids (splitByte ir) = ⟨some op, false, false, false⟩) ∨
    (identify ids ir = .error (.unsupportedAluOp ir) ∧
      dispatchLines ids (splitByte ir) = ⟨none, true, false, false⟩) ∨
    (identify ids ir = .error (.unknownOpcode ir) ∧
      dispatchLines ids (splitByte ir) = ⟨none, false, true, false⟩) ∨
    (identify ids ir = .error (.illegalArity ir) ∧
      dispatchLines ids (splitByte ir) = ⟨none, false, false, true⟩) := by
  cases hlook : groupOp? ids (selectedGroup (splitByte ir)) (splitByte ir).opc with
  | some op =>
    have hdispatch : dispatch ids ir = .ok op := dispatch_eq_ok_iff.mpr hlook
    by_cases hcount : (splitByte ir).n.toNat = op.arity
    · exact .inl ⟨op, by simp [identify, hdispatch, hcount], by rw [dispatchLines_of_found hlook, if_pos hcount]⟩
    · exact .inr (.inr (.inr ⟨by simp [identify, hdispatch, hcount],
        by rw [dispatchLines_of_found hlook, if_neg hcount]⟩))
  | none =>
    have hidentify : identify ids ir = .error (missFault ir) := by
      rw [identify, dispatch_eq_error_iff.mpr ⟨rfl, hlook⟩]
    rw [hidentify, dispatchLines_of_missed hlook]
    cases halu : (splitByte ir).alu with
    | true => exact .inr (.inl ⟨by rw [missFault_eq_unsupportedAluOp_iff.mpr halu], rfl⟩)
    | false => exact .inr (.inr (.inl ⟨by rw [missFault_eq_unknownOpcode_iff.mpr halu], rfl⟩))

/-- Settles O5: in each of the four things a byte can be, the answer of dispatch and the arity check and the four lines
are known, and one line is true. -/
theorem dispatchLinesAreExclusive : Obligations.DispatchLinesAreExclusive := by
  intro ids ir
  obtain ⟨op, hid, hlines⟩ | ⟨hid, hlines⟩ | ⟨hid, hlines⟩ | ⟨hid, hlines⟩ := identify_dispatchLines_cases ids ir
  all_goals simp [hid, hlines]

end Sys2Proof.Machine

/-! SUPPORT. The statements about instruction bytes that name no operation: the identifiers a group's table knows, the
step of a running machine whose instruction byte is rejected, and the host's exit code after a fault. -/

namespace Sys2Proof.Machine

/-! ## The identifiers a group's table knows -/

/-- The identifiers of a group's operations (R67). -/
def groupIds (ids : OpcodeIds) : Group → List Nibble
  | .alu => [ids.add, ids.mul, ids.cmp]
  | .tableA => [ids.halt, ids.ldi, ids.prn, ids.push, ids.pop]
  | .tableB => [ids.call, ids.ret, ids.jmp, ids.jeq, ids.jne]

/-- A group's table misses exactly the identifiers that are not among its own, whatever the map. -/
theorem groupOp?_eq_none_iff_not_mem {ids : OpcodeIds} {g : Group} {opc : Nibble} :
    groupOp? ids g opc = none ↔ opc ∉ groupIds ids g := by
  cases g with
  | alu => simp [groupOp?, aluOp?, groupIds, ite_eq_iff]
  | tableA => simp [groupOp?, tableA?, groupIds, ite_eq_iff]
  | tableB => simp [groupOp?, tableB?, groupIds, ite_eq_iff]

/-- With `alu = 0` the bit `spc` alone selects the table (R67). -/
theorem groupIds_selectedGroup_of_not_alu {ids : OpcodeIds} {f : Fields} (halu : f.alu = false) :
    groupIds ids (selectedGroup f) =
      if f.spc then [ids.call, ids.ret, ids.jmp, ids.jeq, ids.jne]
      else [ids.halt, ids.ldi, ids.prn, ids.push, ids.pop] := by
  cases hspc : f.spc <;> simp [selectedGroup, halu, hspc, groupIds]

/-! ## The step on a rejected instruction byte -/

/-- Dispatch and the arity check come before any operand fetch, so their fault is the one the step takes (R78, R142). -/
theorem stepWith_of_identify_error {ids : OpcodeIds} {s : State} {e : DispatchFault} (hrun : s.run = .running)
    (h : identify ids (s.read s.pc) = .error e) : stepWith ids s = .next (takeFault (Fault.ofDispatch e) s) := by
  have hfetch : fetchInstr ids s = .error (Fault.ofDispatch e) := decodeWith_reject h
  simp only [stepWith, hrun, hfetch]

/-- A step whose instruction byte has an identifier unknown to its group takes the fault of the byte's path, whatever
the count field is: the arity check is not reached. -/
theorem stepWith_of_not_mem_groupIds {ids : OpcodeIds} {s : State} (hrun : s.run = .running)
    (hmiss : (splitByte (s.read s.pc)).opc ∉ groupIds ids (selectedGroup (splitByte (s.read s.pc)))) :
    stepWith ids s = .next (takeFault (Fault.ofDispatch (missFault (s.read s.pc))) s) := by
  have hdispatch : dispatch ids (s.read s.pc) = .error (missFault (s.read s.pc)) :=
    dispatch_eq_error_iff.mpr ⟨rfl, groupOp?_eq_none_iff_not_mem.mpr hmiss⟩
  have hidentify : identify ids (s.read s.pc) = .error (missFault (s.read s.pc)) := by rw [identify, hdispatch]
  exact stepWith_of_identify_error hrun hidentify

/-- The host's exit code is 1 after every fault (R162). -/
@[simp] theorem hostExitCode_takeFault (f : Fault) (s : State) : hostExitCode (takeFault f s) = some 1 := by
  cases f <;> rfl

/-! ## The obligations -/

/-- Settles O13: with `alu = 0` the selected group is the table of `spc`, and a miss there is `UnknownOpcode`. -/
theorem unknownOpcodeByteHalts : Obligations.UnknownOpcodeByteHalts := by
  intro ids s hrun halu hmiss
  rw [← groupIds_selectedGroup_of_not_alu halu] at hmiss
  have hstep := stepWith_of_not_mem_groupIds hrun hmiss
  rw [missFault_eq_unknownOpcode_iff.mpr halu] at hstep
  exact ⟨_, hstep, rfl, rfl, takeFault_pc _ s, 1, hostExitCode_takeFault _ s, by decide⟩

/-- Settles O12: with `alu = 1` the ALU group is selected whatever `spc` is, and a miss there is `UnsupportedAluOp`. -/
theorem unsupportedAluByteHalts : Obligations.UnsupportedAluByteHalts := by
  intro ids s hrun halu hmiss
  have hstep := stepWith_of_not_mem_groupIds hrun (by rwa [selectedGroup_of_alu halu])
  rw [missFault_eq_unsupportedAluOp_iff.mpr halu] at hstep
  exact ⟨_, hstep, rfl, rfl, hostExitCode_takeFault _ s⟩

end Sys2Proof.Machine


/-! SUPPORT. The statements about decoding and encoding: when bytes decode to an instruction, said once in both
directions, and what bit 4 of an ALU byte may be. -/

namespace Sys2Proof.Machine

/-! ## When bytes decode to an instruction -/

/-- `decodeWith` answers the instruction whose operation the byte names and whose operand bytes are in place. -/
theorem decodeWith_of_operands {ε : Type} {ids : OpcodeIds} {reject : DispatchFault → ε}
    {operand : Nat → Except ε Byte} {ir : Byte} {i : Instr} (hid : identify ids ir = .ok i.op)
    (h : ∀ k v, i.operands[k]? = some v → operand (k + 1) = .ok v) : decodeWith ids reject operand ir = .ok i := by
  cases i
  case add | mul | cmp | ldi => exact decodeWith_arity2 hid rfl (h 0 _ rfl) (h 1 _ rfl)
  case prn | push | pop | call | jmp | jeq | jne => exact decodeWith_arity1 hid rfl (h 0 _ rfl)
  case halt | ret => exact decodeWith_arity0 hid rfl

theorem operandAt_cons_eq_ok_iff {ir v : Byte} {tail : List Byte} {k : Nat} :
    operandAt (ir :: tail) (k + 1) = .ok v ↔ tail[k]? = some v := by
  rw [operandAt, List.getElem?_cons_succ]
  cases tail[k]? <;> simp

/-- The operand bytes an instruction is built from, found at the head of a list, are its operands. -/
theorem take_arity_eq_operands {op : Op} {a b : Byte} {tail : List Byte} (ha : 1 ≤ op.arity → tail[0]? = some a)
    (hb : 2 ≤ op.arity → tail[1]? = some b) : tail.take op.arity = (op.build a b).operands := by
  have hone : tail[0]? = some a → tail.take 1 = [a] := by
    intro h
    rw [List.take_add_one, h]
    rfl
  have htwo : tail[0]? = some a → tail[1]? = some b → tail.take 2 = [a, b] := by
    intro h0 h1
    rw [List.take_add_one, hone h0, h1]
    rfl
  cases op
  case add | mul | cmp | ldi => exact htwo (ha (by decide)) (hb (by decide))
  case prn | push | pop | call | jmp | jeq | jne => exact hone (ha (by decide))
  case halt | ret => rfl

/-- Bytes decode to `i` exactly when the first names its operation and its operands follow. -/
theorem decode_eq_ok_iff {ids : OpcodeIds} {ir : Byte} {tail rest : List Byte} {i : Instr} :
    decode ids (ir :: tail) = .ok (i, rest) ↔ identify ids ir = .ok i.op ∧ tail = i.operands ++ rest := by
  constructor
  · intro h
    obtain ⟨hid, -, hrest⟩ := decode_ok h
    refine ⟨hid, ?_⟩
    simp only [decode] at h
    split at h
    · cases h
    next hi =>
      obtain ⟨rfl, -⟩ := Prod.mk.inj (Except.ok.inj h)
      obtain ⟨op, a, b, -, rfl, h1, h2⟩ := decodeWith_ok hi
      have htake := take_arity_eq_operands (fun hk => operandAt_cons_eq_ok_iff.mp (h1 hk))
        fun hk => operandAt_cons_eq_ok_iff.mp (h2 hk)
      rw [hrest, Op.build_op, ← htake, List.take_append_drop]
  · rintro ⟨hid, rfl⟩
    have hwith : decodeWith ids .dispatch (operandAt (ir :: (i.operands ++ rest))) ir = .ok i := by
      refine decodeWith_of_operands hid fun k v hk => operandAt_cons_eq_ok_iff.mpr ?_
      rw [List.getElem?_append_left (List.getElem?_eq_some_iff.mp hk).1, hk]
    simp only [decode, hwith]
    rw [Nat.add_comm, List.drop_succ_cons, ← i.operands_length, List.drop_left]

/-! ## The encoder -/

/-- The canonical first byte of an operation names it. -/
theorem firstByte_names (ids : OpcodeIds) (op : Op) : Names ids (op.firstByte ids) op := by
  refine ⟨op.firstByte_count ids, ?_⟩
  rw [Op.firstByte, splitByte_joinByte]
  exact ⟨rfl, by cases op <;> rfl⟩

/-- Settles O6: the canonical first byte names the operation, and the operands follow it. -/
theorem decodeOfEncodeIsTheInstruction : Obligations.DecodeOfEncodeIsTheInstruction :=
  fun ids i _ hd => decode_eq_ok_iff.mpr ⟨identify_of_names hd (firstByte_names ids i.op), rfl⟩

/-! ## The other direction, and bit 4 of an ALU byte -/

/-- The byte laid out from its own fields is the byte (R45). -/
theorem joinByte_splitByte (ir : Byte) : joinByte (splitByte ir) = ir := by
  revert ir
  decide

/-- Setting `spc` sets bit 4 (R45). -/
theorem joinByte_set_spc (n : BitVec 2) (alu : Bool) (opc : Nibble) :
    joinByte ⟨n, alu, true, opc⟩ = joinByte ⟨n, alu, false, opc⟩ ||| 0x10 := by
  revert n alu opc
  decide

/-- A byte that passes dispatch and the arity check names the operation found, whatever the map. -/
theorem names_of_identify {ids : OpcodeIds} {ir : Byte} {op : Op} (h : identify ids ir = .ok op) :
    Names ids ir op := by
  obtain ⟨hdispatch, hcount⟩ := identify_ok h
  have hfound := dispatch_eq_ok_iff.mp hdispatch
  have hentry : op.group = selectedGroup (splitByte ir) ∧ ids.of op = (splitByte ir).opc := by
    cases hg : selectedGroup (splitByte ir) with
    | alu => exact aluOp?_some (by rwa [hg] at hfound)
    | tableA => exact tableA?_some (by rwa [hg] at hfound)
    | tableB => exact tableB?_some (by rwa [hg] at hfound)
  exact ⟨hcount, hentry.2.symm, hentry.1.symm⟩

/-- A byte that names an operation is its canonical first byte, or the ALU byte with bit 4 set besides (R56). -/
theorem firstByte_cases_of_names {ids : OpcodeIds} {ir : Byte} {op : Op} (h : Names ids ir op) :
    ir = op.firstByte ids ∨ (op.group = .alu ∧ ir = op.firstByte ids ||| 0x10) := by
  obtain ⟨hcount, hopc, hgroup⟩ := h
  have hn : (splitByte ir).n = BitVec.ofNat 2 op.arity := by rw [← hcount, BitVec.ofNat_toNat, BitVec.setWidth_eq]
  rw [← joinByte_splitByte ir]
  generalize splitByte ir = f at hn hopc hgroup ⊢
  obtain ⟨n, alu, spc, opc⟩ := f
  subst hn hopc
  rw [Op.firstByte, ← hgroup]
  cases alu with
  | true =>
    cases spc with
    | true => exact .inr ⟨rfl, joinByte_set_spc _ true _⟩
    | false => exact .inl rfl
  | false => cases spc <;> exact .inl rfl

/-- Settles O7: the first byte names the operation, so it is the canonical one but for bit 4 on the ALU path; the
operands follow it. -/
theorem decodedBytesAreTheEncoding : Obligations.DecodedBytesAreTheEncoding := by
  intro ids bytes rest i h
  cases bytes with
  | nil => cases h
  | cons ir tail =>
    obtain ⟨hid, rfl⟩ := decode_eq_ok_iff.mp h
    obtain rfl | ⟨halu, rfl⟩ := firstByte_cases_of_names (names_of_identify hid)
    · exact .inl rfl
    · exact .inr ⟨halu, _, _, rfl, rfl⟩

/-- On the ALU path a byte with bit 4 flipped passes dispatch and the arity check alike (R56). -/
theorem identify_toggle_spc {ids : OpcodeIds} {ir : Byte} {op : Op} (halu : (splitByte ir).alu = true) :
    identify ids (ir ^^^ 0x10) = .ok op ↔ identify ids ir = .ok op := by
  simp only [identify, dispatch, splitByte_toggle_spc, halu, if_true]
  cases aluOp? ids (splitByte ir).opc with
  | none => simp
  | some found => by_cases hcount : (splitByte ir).n.toNat = found.arity <;> simp [hcount]

/-- Settles O9: only dispatch and the arity check see the first byte, and they pass it alike with bit 4 flipped. -/
theorem aluPathIgnoresSetsPcBit : Obligations.AluPathIgnoresSetsPcBit := by
  rintro ids ir tail ⟨i, rest⟩ halu
  rw [decode_eq_ok_iff, decode_eq_ok_iff, identify_toggle_spc halu]

end Sys2Proof.Machine


/-! SUPPORT. The invariants of a step and of a run: memory in canonical form, the flags, the cause, and that a running
machine goes on until it is halted. -/

namespace Sys2Proof.Machine

/-! ## What the completion of an instruction keeps -/

theorem Completes.mem_wf {i : Instr} {s t : State} (h : Completes i s t) (hw : Memory.wf s.mem) :
    Memory.wf t.mem := by
  obtain hmem | ⟨_, g, -, hmem⟩ := h.mem_cases
  · rwa [hmem]
  · rw [hmem]
    exact State.push_wf g hw

/-- A completed instruction leaves `FL` alone or leaves exactly one bit set (R20). -/
theorem Completes.fl_cases {i : Instr} {s t : State} (h : Completes i s t) : t.fl = s.fl ∨ t.fl.OneSet := by
  obtain ⟨-, rfl⟩ | ⟨_, -, rfl⟩ | ⟨a, b, -, rfl⟩ | ⟨hfl, -, -⟩ := h.control_cases
  · exact .inl rfl
  · exact .inl rfl
  · exact .inr (compareFlags_oneSet _ _)
  · exact .inl hfl

/-- Only a fault writes `CAUSE` (R24). -/
theorem Completes.cause_eq {i : Instr} {s t : State} (h : Completes i s t) : t.cause = s.cause := by
  obtain ⟨-, rfl⟩ | ⟨_, -, rfl⟩ | ⟨_, _, -, rfl⟩ | ⟨-, ⟨-, hcause⟩, -⟩ := h.control_cases
  · rfl
  · rfl
  · rfl
  · exact hcause

/-! ## The invariants -/

theorem takeFault_inv {s : State} (f : Fault) (h : s.Inv) : (takeFault f s).Inv := by
  obtain ⟨hmem, hfl, -⟩ := h
  exact ⟨hmem, hfl, nofun⟩

theorem Completes.inv {i : Instr} {s t : State} (h : Completes i s t) (hrun : s.run = .running) (hs : s.Inv) :
    t.Inv := by
  obtain ⟨hmem, hfl, hcause⟩ := hs
  refine ⟨h.mem_wf hmem, ?_, fun _ => h.cause_eq.trans (hcause hrun)⟩
  obtain hkept | hset := h.fl_cases
  · rwa [State.FlagsLegal, hkept]
  · exact .inr hset

/-- Settles O41: a step takes a fault, which writes `RUN` and `CAUSE` alone, or completes an instruction. -/
theorem stepKeepsTheInvariant : Obligations.StepKeepsTheInvariant := by
  intro ids s t hs hstep
  obtain ⟨hrun, ⟨f, rfl⟩ | ⟨i, -, hc⟩⟩ := stepWith_next hstep
  · exact takeFault_inv f hs
  · exact hc.inv hrun hs

/-- Settles O43: a fault leaves `FL` alone, and so does a completed instruction that does not set exactly one bit. -/
theorem flagsStayOneHotAfterACompare : Obligations.FlagsStayOneHotAfterACompare := by
  intro ids s t hs hstep
  obtain ⟨-, ⟨f, rfl⟩ | ⟨i, -, hc⟩⟩ := stepWith_next hstep
  · exact hs
  · obtain hkept | hset := hc.fl_cases
    · rwa [hkept]
    · exact hset

/-- Settles O42: no cell is listed at reset, and placing an image keeps the canonical form. -/
theorem resetAndLaunchMeetTheInvariant : Obligations.ResetAndLaunchMeetTheInvariant := by
  have hflags : State.reset.FlagsLegal := by decide
  refine ⟨⟨reset_mem_wf, hflags, fun _ => rfl⟩, fun rest image s hw h => ?_⟩
  unfold launch at h
  split at h
  · cases h
    exact ⟨placeBytes_wf image _ hw, hflags, fun _ => rfl⟩
  · cases h

/-! ## A running machine goes on -/

theorem exec_has_next (i : Instr) (s : State) : ∃ t, exec i s = .next t := by
  obtain ⟨f, h⟩ | ⟨t, -, h⟩ := exec_cases i s
  · exact ⟨_, h⟩
  · exact ⟨t, h⟩

theorem stepWith_has_next (ids : OpcodeIds) {s : State} (hrun : s.run = .running) : ∃ t, stepWith ids s = .next t := by
  obtain ⟨hhalted, -⟩ | ⟨-, i, -, h⟩ | ⟨-, f, -, h⟩ := stepWith_cases ids s
  · simp [hrun] at hhalted
  · simpa only [h] using exec_has_next i s
  · exact ⟨_, h⟩

/-- Settles O16: the fetch of a running machine ends in a fault that is taken or in an instruction, and every
instruction takes a fault or completes. -/
theorem runningMachineAlwaysSteps : Obligations.RunningMachineAlwaysSteps :=
  ⟨fun ids _ hrun => stepWith_has_next ids hrun, exec_has_next⟩

theorem stepWith_halted (ids : OpcodeIds) {s : State} (h : s.run = .halted) : stepWith ids s = .refused .halted := by
  simp only [stepWith, h]

/-- Settles O15: the step looks at `RUN` first. -/
theorem haltedMachineHasNoStep : Obligations.HaltedMachineHasNoStep := by
  refine ⟨fun ids s h => stepWith_halted ids h, fun ids s t h hstep => ?_⟩
  rw [stepWith_halted ids h] at hstep
  cases hstep

/-- A run with one more step, from its first step. -/
theorem run_succ_of_next {s t : State} (h : step s = .next t) (n : Nat) :
    Sys2Proof.core.run (n + 1) s = Sys2Proof.core.run n t := by
  have hcore : Sys2Proof.core.step s = .next t := h
  simp only [Host.Core.run, hcore]

theorem run_succ_of_halted {s : State} (h : s.run = .halted) (n : Nat) :
    Sys2Proof.core.run (n + 1) s = .refused .halted := by
  have hcore : Sys2Proof.core.step s = .refused .halted := stepWith_halted defaultIds h
  simp only [Host.Core.run, hcore]

/-- Settles O44: by induction on the budget; the first step is taken, and after it the machine runs on with the smaller
budget or is halted. -/
theorem runGoesOnUntilHalted : Obligations.RunGoesOnUntilHalted := by
  intro n
  induction n with
  | zero => exact fun s _ => .inl ⟨s, rfl⟩
  | succ n ih =>
    intro s hrun
    obtain ⟨t, hstep⟩ := stepWith_has_next defaultIds hrun
    simp only [run_succ_of_next hstep]
    cases ht : t.run with
    | running =>
      obtain hall | ⟨k, u, hk, hu, hhalted, hrefused⟩ := ih t ht
      · exact .inl hall
      · exact .inr ⟨k + 1, u, by omega, (run_succ_of_next hstep k).trans hu, hhalted, hrefused⟩
    | halted =>
      cases n with
      | zero => exact .inl ⟨t, rfl⟩
      | succ n => exact .inr ⟨1, t, by omega, run_succ_of_next hstep 0, ht, run_succ_of_halted ht n⟩

end Sys2Proof.Machine


/-! SUPPORT. The rules of the stack and of the conditional jumps: what a push and a pop make of the stack pointer, of
memory and of the registers, the two-instruction laws that follow, and the two paths of a branch. -/

namespace Sys2Proof.Machine

/-! ## The effect of a push and of a pop -/

theorem push_setPc_sp (s : State) (g : State → Byte) (p : Byte) : ((s.push g).setPc p).sp = s.sp - 1#8 := by
  rw [State.setPc_sp, State.push_sp]

/-- The stack pointer after a push, counted modulo 256 (R101). -/
theorem push_setPc_sp_toNat (s : State) (g : State → Byte) (p : Byte) :
    ((s.push g).setPc p).sp.toNat = (s.sp.toNat + 255) % 256 := by
  rw [push_setPc_sp, BitVec.toNat_sub, Nat.add_comm]
  rfl

/-- A push writes register 7 and the cell it then names, and leaves the rest alone, wherever `pc` goes. -/
theorem push_setPc_frame (s : State) (g : State → Byte) (p : Byte) :
    SameRegsBut spIndex s ((s.push g).setPc p) ∧ SameMemBut s.decSp.sp s ((s.push g).setPc p) ∧
      SameControl s ((s.push g).setPc p) := by
  refine ⟨fun r hne => ?regs, fun other hne => ?mem, rfl, ⟨rfl, rfl⟩, rfl⟩
  case regs => rw [State.setPc_reg, State.push_reg, State.decSp_reg, if_neg hne]
  case mem =>
    rw [State.decSp_sp] at hne
    rw [State.setPc_read, State.push_read_ne s g hne]

/-- Register 7 after a pop of `v` into register `q`: the load comes first, the increment last (R100). -/
theorem pop_sp (s : State) (q : RegIndex) (v p : Byte) :
    (((s.setReg q v).incSp).setPc p).sp = (if q = spIndex then v else s.sp) + 1#8 := by
  rw [State.setPc_sp, State.incSp_sp, State.sp, State.setReg_reg]
  simp only [eq_comm, State.sp]

theorem pop_reg (s : State) {q : RegIndex} (v p : Byte) (h : q ≠ spIndex) :
    (((s.setReg q v).incSp).setPc p).reg q = v := by
  rw [State.setPc_reg, State.incSp_reg, if_neg h, State.setReg_reg_same]

/-- A pop leaves the registers other than its destination and register 7 alone. -/
theorem pop_reg_ne (s : State) {q r : RegIndex} (v p : Byte) (hq : r ≠ q) (hsp : r ≠ spIndex) :
    (((s.setReg q v).incSp).setPc p).reg r = s.reg r := by
  rw [State.setPc_reg, State.incSp_reg, if_neg hsp, State.setReg_reg_ne s v hq]

/-! ## `PUSH`, `POP` and `CALL` -/

theorem runsRegThenAdvance_push :
    RunsRegThenAdvance 1 .push fun s ra next => (s.push fun t => t.reg ra).setPc next := fun _ _ => rfl

theorem runsRegThenAdvance_pop :
    RunsRegThenAdvance 1 .pop fun s ra next => ((s.setReg ra (s.read s.sp)).incSp).setPc next := fun _ _ => rfl

theorem runsRegThenAdvance_call :
    RunsRegThenAdvance 1 .call fun s ra next => (s.push fun _ => next).setPc (s.decSp.reg ra) := fun _ _ => rfl

/-- Settles O24: the shared fetch and checks, and a push of the register as it is after the decrement. -/
theorem pushRule : Obligations.PushRule := by
  have hpush := runsRegThenAdvance_push
  refine ⟨runsAs_build .push, hpush.faults_index, hpush.faults_advance (by decide), fun s a hw hp => ?_⟩
  refine ⟨_, exec_push_byte a hp, push_setPc_sp_toNat s _ _, ?sp, ?stored, pcNext_toNat hp, push_setPc_frame s _ _⟩
  case sp => rw [push_setPc_sp, State.decSp_sp]
  case stored => rw [push_setPc_read_decSp _ _ hw, State.decSp_reg, push_setPc_sp]

/-- Settles O25: the shared fetch and checks, and a pop; memory is not written. -/
theorem popRule : Obligations.PopRule := by
  have hpop := runsRegThenAdvance_pop
  refine ⟨runsAs_build .pop, hpop.faults_index, hpop.faults_advance (by decide), fun s a hp => ?_⟩
  refine ⟨_, exec_pop_byte a hp, pop_reg s _ _, ?sp, pcNext_toNat hp, fun r => pop_reg_ne s _ _, fun _ => rfl, rfl,
    ⟨rfl, rfl⟩, rfl⟩
  rw [pop_sp, BitVec.toNat_add]
  rfl

/-- Settles O26: the shared fetch and checks, a push of the return address, and a jump to the register as it is after
the decrement. -/
theorem callRule : Obligations.CallRule := by
  have hcall := runsRegThenAdvance_call
  refine ⟨runsAs_build .call, hcall.faults_index, hcall.faults_advance (by decide), fun s a hw hp => ?_⟩
  refine ⟨_, exec_call_byte a hp, push_setPc_sp_toNat s _ _, ?sp, ?stored, ?target, push_setPc_frame s _ _⟩
  case sp => rw [push_setPc_sp, State.decSp_sp]
  case stored =>
    rw [push_setPc_read_decSp _ _ hw]
    exact pcNext_toNat hp
  case target => rw [State.setPc_pc, State.decSp_reg, push_setPc_sp]

/-! ## The laws of the stack -/

/-- Settles O40: the stack pointer after a push and a pop, at both ends and at the reset value. -/
theorem stackWrapsAtBothEnds : Obligations.StackWrapsAtBothEnds := by
  refine ⟨fun s a hw hsp hne hp => ?push, fun s a hsp hne hp => ?pop, fun m a hw hne => ?reset⟩
  case push =>
    have hcell : s.decSp.sp = 255 := by rw [State.decSp_sp, hsp]; rfl
    refine ⟨_, exec_push_byte a (by omega), (push_setPc_sp s _ _).trans (by rw [hsp]; rfl), ?_, rfl⟩
    rw [← hcell, push_setPc_read_decSp _ _ hw, State.decSp_reg, if_neg hne]
  case pop =>
    refine ⟨_, exec_pop_byte a (by omega), ?_, ?_, rfl⟩
    · rw [pop_sp, if_neg hne, hsp]
      rfl
    · rw [pop_reg s _ _ hne, hsp]
  case reset =>
    have hsp : (State.reset.withMem m).sp = 0xF4 := reset_reg spIndex
    have hcell : (State.reset.withMem m).decSp.sp = 0xF3 := by rw [State.decSp_sp, hsp]; rfl
    refine ⟨_, exec_push_byte a (by decide : State.reset.pc.toNat + 2 ≤ 255), ?_, ?_⟩
    · rw [push_setPc_sp, hsp]
      rfl
    · rw [← hcell, push_setPc_read_decSp _ _ hw, State.decSp_reg, if_neg hne]
      exact (reset_reg a).trans (if_neg hne)

/-- Settles O46: the pop reads the cell that the push has written and increments what it has decremented; with operand
7 each reads or writes the stack pointer itself. -/
theorem pushThenPopMovesTheValue : Obligations.PushThenPopMovesTheValue := by
  intro s r q hw hp
  have hnext : ((s.push fun u => u.reg r).setPc (s.pc + 2)).pc.toNat = s.pc.toNat + 2 :=
    pcNext_toNat (k := 2) (by omega)
  have hpop : ((s.push fun u => u.reg r).setPc (s.pc + 2)).pc.toNat + 2 ≤ 255 := by omega
  have hread : ((s.push fun u => u.reg r).setPc (s.pc + 2)).read (s.sp - 1#8) = s.decSp.reg r := by
    rw [State.setPc_read, State.push_read_same _ hw]
  refine ⟨_, _, exec_push_byte r (by omega), exec_pop_byte q hpop, ?_⟩
  simp only [pop_sp, push_setPc_sp, hread, State.decSp_reg]
  refine ⟨fun hr hq => ⟨?_, ?_⟩, fun hr hq => ⟨?_, ?_⟩, fun hr hq => ?_, fun hr hq => ?_, ?pc⟩
  case pc =>
    have hlast := pcNext_toNat hpop
    rw [hnext] at hlast
    exact hlast
  · rw [pop_reg _ _ _ hq, if_neg hr]
  · rw [if_neg hq, BitVec.sub_add_cancel]
  · rw [pop_reg _ _ _ hq, if_pos hr]
    rfl
  · rw [if_neg hq, BitVec.sub_add_cancel]
  · rw [if_pos hq, if_neg hr]
    rfl
  · rw [if_pos hq, if_pos hr, BitVec.sub_add_cancel]

/-- Settles O47: the cell holds the return address and the stack pointer is one below where it was. -/
theorem retResumesAfterTheCall : Obligations.RetResumesAfterTheCall := by
  intro s t u a hw hp hcall hsp hcell
  have hret : u.read u.sp = s.pc + 2 := by
    rw [exec_call_byte a hp] at hcall
    cases hcall
    rw [hsp, hcell, push_setPc_sp, State.setPc_read, State.push_read_same _ hw]
  have hback : t.sp + 1#8 = s.sp := by
    rw [exec_call_byte a hp] at hcall
    cases hcall
    rw [push_setPc_sp, BitVec.sub_add_cancel]
  refine ⟨(u.setPc (u.read u.sp)).incSp, rfl, ?pc, ?sp⟩
  case pc =>
    rw [State.incSp_pc, State.setPc_pc, hret]
    exact pcNext_toNat hp
  case sp => rw [State.incSp_sp, State.setPc_sp, hsp, hback]

/-! ## The conditional jumps -/

/-- The meaning of `mk a` is the branch to register `a` under the test `taken` of the flags. -/
def RunsBranch (mk : Byte → Instr) (taken : Flags → Bool) : Prop :=
  ∀ (a : Byte) (s : State), exec (mk a) s = conclude s (branch (taken s.fl) a s)

namespace RunsBranch

variable {mk : Byte → Instr} {taken : Flags → Bool}

/-- Taken, the index is the one check. -/
theorem faults_index (h : RunsBranch mk taken) {s : State} {a : Byte} (ht : taken s.fl = true) (ha : 7 < a.toNat) :
    Faults (mk a) s (.regRangeFault a) := by
  rw [Faults, h, ht, branch_taken, jumpTo_error s ha, conclude_error]

theorem jumps (h : RunsBranch mk taken) {s : State} {a : RegIndex} (ht : taken s.fl = true) :
    exec (mk a.byte) s = .next (s.setPc (s.reg a)) := by
  rw [h, ht, branch_taken, jumpTo_byte, conclude_ok]

/-- Not taken, the advance is the one check, whatever the operand byte is (D25). -/
theorem faults_advance (h : RunsBranch mk taken) {s : State} {a : Byte} (ht : taken s.fl = false)
    (hp : 255 < s.pc.toNat + 2) : Faults (mk a) s (.memRangeFault (BitVec.ofNat 9 (s.pc.toNat + 2))) := by
  obtain ⟨hle, -⟩ | ⟨-, hbranch⟩ := branch_not_taken_cases a s
  · omega
  · rw [Faults, h, ht, hbranch, conclude_error]

theorem advances (h : RunsBranch mk taken) {s : State} {a : Byte} (ht : taken s.fl = false)
    (hp : s.pc.toNat + 2 ≤ 255) : exec (mk a) s = .next (s.setPc (s.pc + 2)) := by
  obtain ⟨-, hbranch⟩ | ⟨hlt, -⟩ := branch_not_taken_cases a s
  · rw [h, ht, hbranch, conclude_ok]
  · omega

end RunsBranch

theorem runsBranch_jeq : RunsBranch .jeq takenJeq := fun _ _ => rfl
theorem runsBranch_jne : RunsBranch .jne takenJne := fun _ _ => rfl

@[simp] theorem takenJne_eq_true_iff {f : Flags} : takenJne f = true ↔ f.e = false := by simp [takenJne]
@[simp] theorem takenJne_eq_false_iff {f : Flags} : takenJne f = false ↔ f.e = true := by simp [takenJne]

/-- Settles O29: the shared fetch, and the two paths of the branch on `FL.E`. -/
theorem jeqRule : Obligations.JeqRule := by
  have hjeq := runsBranch_jeq
  exact ⟨runsAs_build .jeq, fun s a he ha => hjeq.faults_index he ha,
    fun s a he => ⟨_, hjeq.jumps he, rfl, setPc_frame s _⟩, fun s a he hp => hjeq.faults_advance he hp,
    fun s a he hp => ⟨_, hjeq.advances he hp, pcNext_toNat hp, setPc_frame s _⟩⟩

/-- Settles O30: the shared fetch, and the two paths of the branch on the negation of `FL.E`. -/
theorem jneRule : Obligations.JneRule := by
  have hjne := runsBranch_jne
  exact ⟨runsAs_build .jne, fun s a he ha => hjne.faults_index (takenJne_eq_true_iff.mpr he) ha,
    fun s a he => ⟨_, hjne.jumps (takenJne_eq_true_iff.mpr he), rfl, setPc_frame s _⟩,
    fun s a he hp => hjne.faults_advance (takenJne_eq_false_iff.mpr he) hp,
    fun s a he hp => ⟨_, hjne.advances (takenJne_eq_false_iff.mpr he) hp, pcNext_toNat hp, setPc_frame s _⟩⟩

/-! ## The meaning of an instruction that completes -/

theorem runsBranch_jmp : RunsBranch .jmp fun _ => true := fun _ _ => rfl

/-- An instruction that passes its checks answers the state its effects give. -/
theorem Completes.exec_eq {i : Instr} {s t : State} (h : Completes i s t) : exec i s = .next t := by
  cases i <;> simp only [Completes] at h
  case add =>
    obtain ⟨ra, rb, rfl, rfl, hp, rfl⟩ := h
    exact runsRegPair_add.completes s ra rb hp
  case mul =>
    obtain ⟨ra, rb, rfl, rfl, hp, rfl⟩ := h
    exact runsRegPair_mul.completes s ra rb hp
  case cmp =>
    obtain ⟨ra, rb, rfl, rfl, hp, rfl⟩ := h
    exact runsRegPair_cmp.completes s ra rb hp
  case halt | ret => rw [h]; rfl
  case ldi imm =>
    obtain ⟨ra, rfl, hp, rfl⟩ := h
    exact (runsRegThenAdvance_ldi imm).completes (by decide) s ra hp
  case prn =>
    obtain ⟨ra, rfl, hp, rfl⟩ := h
    exact exec_prn_byte ra hp
  case push =>
    obtain ⟨ra, rfl, hp, rfl⟩ := h
    exact exec_push_byte ra hp
  case pop =>
    obtain ⟨ra, rfl, hp, rfl⟩ := h
    exact exec_pop_byte ra hp
  case call =>
    obtain ⟨ra, rfl, hp, rfl⟩ := h
    exact exec_call_byte ra hp
  case jmp =>
    obtain ⟨ra, rfl, rfl⟩ := h
    exact runsBranch_jmp.jumps rfl
  case jeq =>
    obtain ⟨he, ra, rfl, rfl⟩ | ⟨he, hp, rfl⟩ := h
    · exact runsBranch_jeq.jumps he
    · exact runsBranch_jeq.advances he hp
  case jne =>
    obtain ⟨he, ra, rfl, rfl⟩ | ⟨he, hp, rfl⟩ := h
    · exact runsBranch_jne.jumps (takenJne_eq_true_iff.mpr he)
    · exact runsBranch_jne.advances (takenJne_eq_false_iff.mpr he) hp

end Sys2Proof.Machine


/-! SUPPORT. The block against the instruction rules: the check phase as the checks of an instruction, the effect phase
as its completion, and from both what one step of the block is. -/

namespace Sys2Proof.Machine

/-! ## The sums of the block -/

theorem ofNat_toNat_add (v : Byte) (k : Nat) : BitVec.ofNat 8 (v.toNat + k) = v + BitVec.ofNat 8 k := by
  apply BitVec.eq_of_toNat_eq
  simp

/-- The block's sum `pc + 1 + n`, cut to 8 bits. -/
theorem ofNat_pcNext (pc : Byte) (n : Nat) : BitVec.ofNat 8 (pc.toNat + 1 + n) = pc + BitVec.ofNat 8 (1 + n) := by
  rw [Nat.add_assoc, ofNat_toNat_add]

theorem aluUnit_add (u v : Byte) : aluUnit .add u v = ⟨some (u + v), none⟩ := by
  rw [aluUnit, ofNat_toNat_add, BitVec.ofNat_toNat, BitVec.setWidth_eq]

theorem aluUnit_mul (u v : Byte) : aluUnit .mul u v = ⟨some (u * v), none⟩ := by
  rw [aluUnit, BitVec.ofNat_mul, BitVec.ofNat_toNat, BitVec.ofNat_toNat, BitVec.setWidth_eq, BitVec.setWidth_eq]

/-- The operand reads, where the operand bytes are there. -/
theorem operandReads_eq {s : State} {n : Nat} (h : s.pc.toNat + n ≤ 255) :
    operandReads n s = (List.range' 1 n).map fun k => .memRead (s.pc + BitVec.ofNat 8 k) := by
  have hall : (List.range' 1 n).filter (fun k => s.pc.toNat + k ≤ 255) = List.range' 1 n := by
    refine List.filter_eq_self.mpr fun k hk => decide_eq_true ?_
    have := List.mem_range'_1.mp hk
    omega
  simp only [operandReads, hall, ofNat_toNat_add]

/-! ## The check phase -/

/-- The check phase in the order of R142, its tests read as propositions. -/
theorem checkPhase_eq (cw : ControlWord) (n : Nat) (a b : Byte) (s : State) :
    checkPhase cw n a b s =
      if cw.usesA s.fl.e = true ∧ 7 < a.toNat then some (.regRangeFault a)
      else if cw.usesB = true ∧ 7 < b.toNat then some (.regRangeFault b)
      else if cw.usesAdvance s.fl.e = true ∧ 255 < s.pc.toNat + (1 + n) then
        some (.memRangeFault (BitVec.ofNat 9 (s.pc.toNat + (1 + n))))
      else none := by
  simp only [checkPhase, idxErr_eq, Bool.and_eq_true, decide_eq_true_eq, Nat.add_assoc]

/-- The check phase of `cw` raises the fault that `i` takes, or raises none and `passed` holds. -/
def ChecksAs (cw : ControlWord) (n : Nat) (a b : Byte) (i : Instr) (s : State) (passed : Prop) : Prop :=
  (∃ f, checkPhase cw n a b s = some f ∧ Faults i s f) ∨ (checkPhase cw n a b s = none ∧ passed)

theorem RunsRegPair.checksAs {mk : Byte → Byte → Instr} {effect : State → RegIndex → RegIndex → Byte → State}
    (h : RunsRegPair mk effect) {cw : ControlWord} (ha : ∀ e, cw.usesA e = true) (hb : cw.usesB = true)
    (hadv : ∀ e, cw.usesAdvance e = true) (a b : Byte) (s : State) :
    ChecksAs cw 2 a b (mk a b) s (∃ ra rb : RegIndex, a = ra.byte ∧ b = rb.byte ∧ s.pc.toNat + 3 ≤ 255) := by
  simp only [ChecksAs, checkPhase_eq, ha, hb, hadv, true_and]
  rcases Nat.lt_or_ge 7 a.toNat with h7 | h7
  · exact .inl ⟨_, if_pos h7, h.faults_first s a b h7⟩
  obtain ⟨ra, rfl⟩ := exists_index h7
  rw [if_neg (Nat.not_lt.mpr h7)]
  rcases Nat.lt_or_ge 7 b.toNat with h7 | h7
  · exact .inl ⟨_, if_pos h7, h.faults_second s ra b h7⟩
  obtain ⟨rb, rfl⟩ := exists_index h7
  rw [if_neg (Nat.not_lt.mpr h7)]
  rcases Nat.lt_or_ge 255 (s.pc.toNat + (1 + 2)) with hp | hp
  · exact .inl ⟨_, if_pos hp, h.faults_advance s ra rb hp⟩
  · exact .inr ⟨if_neg (Nat.not_lt.mpr hp), ra, rb, rfl, rfl, hp⟩

theorem RunsRegThenAdvance.checksAs {n : Nat} {mk : Byte → Instr} {effect : State → RegIndex → Byte → State}
    (h : RunsRegThenAdvance n mk effect) (hn : n ≤ 2) {cw : ControlWord} (ha : ∀ e, cw.usesA e = true)
    (hb : cw.usesB = false) (hadv : ∀ e, cw.usesAdvance e = true) (a b : Byte) (s : State) :
    ChecksAs cw n a b (mk a) s (∃ ra : RegIndex, a = ra.byte ∧ s.pc.toNat + (1 + n) ≤ 255) := by
  simp only [ChecksAs, checkPhase_eq, ha, hb, hadv, true_and, Bool.false_eq_true, false_and, if_false]
  rcases Nat.lt_or_ge 7 a.toNat with h7 | h7
  · exact .inl ⟨_, if_pos h7, h.faults_index s a h7⟩
  obtain ⟨ra, rfl⟩ := exists_index h7
  rw [if_neg (Nat.not_lt.mpr h7)]
  rcases Nat.lt_or_ge 255 (s.pc.toNat + (1 + n)) with hp | hp
  · exact .inl ⟨_, if_pos hp, h.faults_advance hn s ra hp⟩
  · exact .inr ⟨if_neg (Nat.not_lt.mpr hp), ra, rfl, hp⟩

theorem RunsBranch.checksAs {mk : Byte → Instr} {taken : Flags → Bool} (h : RunsBranch mk taken) {cw : ControlWord}
    (ha : ∀ fl : Flags, cw.usesA fl.e = taken fl) (hb : cw.usesB = false)
    (hadv : ∀ fl : Flags, cw.usesAdvance fl.e = !taken fl) (a b : Byte) (s : State) :
    ChecksAs cw 1 a b (mk a) s ((taken s.fl = true ∧ ∃ ra : RegIndex, a = ra.byte) ∨
      (taken s.fl = false ∧ s.pc.toNat + 2 ≤ 255)) := by
  simp only [ChecksAs, checkPhase_eq, ha, hb, hadv, Bool.false_eq_true, false_and, if_false]
  cases ht : taken s.fl with
  | true =>
    rcases Nat.lt_or_ge 7 a.toNat with h7 | h7
    · exact .inl ⟨_, if_pos ⟨rfl, h7⟩, h.faults_index ht h7⟩
    · exact .inr ⟨by simp [h7], .inl ⟨rfl, exists_index h7⟩⟩
  | false =>
    rcases Nat.lt_or_ge 255 (s.pc.toNat + 2) with hp | hp
    · exact .inl ⟨_, by simp [hp], h.faults_advance ht hp⟩
    · exact .inr ⟨by simp [hp], .inr ⟨rfl, hp⟩⟩

end Sys2Proof.Machine


/-! SUPPORT. The effect phase of each row of the control table, and one step of the block: a taken fault after reads
alone, or the completion of the fetched instruction with its accesses in order. -/

namespace Sys2Proof.Machine

/-! ## The effect phase, by the kinds of rows of the control table -/

/-- A row whose one effect is its next `pc`. -/
def ControlWord.OnlyPc (cw : ControlWord) : Prop :=
  cw.alu = none ∧ cw.regWrite = .none ∧ cw.stack = none ∧ cw.data = .none ∧ cw.outValid = false ∧ cw.halts = false

theorem effectPhase_of_onlyPc {cw : ControlWord} (h : cw.OnlyPc) (n : Nat) (a b : Byte) (s : State) :
    effectPhase cw n a b s = ⟨s.setPc (nextPc cw n (muxRead s.x a) none s), []⟩ := by
  obtain ⟨halu, hreg, hstack, hdata, hout, hhalts⟩ := h
  simp [effectPhase, halu, hreg, hstack, hdata, hout, hhalts, pushSp, popSp, aluData, readData, writeData,
    regWriteData, muxWriteIf, State.setPc]

/-- The rows of `ADD` and `MUL`. -/
theorem effectPhase_aluResult {op : AluOp} {s : State} {ra rb : RegIndex} {v : Byte}
    (h : aluUnit op (s.reg ra) (s.reg rb) = ⟨some v, none⟩) :
    effectPhase ⟨.ab, some op, .aluResult, none, .none, false, .advance, false⟩ 2 ra.byte rb.byte s =
      ⟨(s.setReg ra v).setPc (s.pc + 3), []⟩ := by
  rw [State.reg, State.reg] at h
  simp [effectPhase, pushSp, popSp, aluData, writeData, regWriteData, muxWriteIf, nextPc, ofNat_pcNext, h,
    State.setReg, State.setPc]

theorem effectPhase_cmp (s : State) (ra rb : RegIndex) :
    effectPhase (controlWord .cmp) 2 ra.byte rb.byte s =
      ⟨(s.setFlags (compareFlags (s.reg ra) (s.reg rb))).setPc (s.pc + 3), []⟩ := by
  obtain ⟨v, hv, hflags⟩ := Option.map_eq_some_iff.mp (aluUnit_cmp_flags (s.reg ra) (s.reg rb))
  have halu : aluUnit .cmp (s.reg ra) (s.reg rb) = ⟨none, some v⟩ := by rw [← hv]; rfl
  rw [← hflags]
  rw [State.reg, State.reg] at halu
  simp [effectPhase, controlWord, pushSp, popSp, aluData, writeData, regWriteData, muxWriteIf, nextPc, ofNat_pcNext,
    halu, State.setFlags, State.setPc]

theorem effectPhase_halt (a b : Byte) (s : State) : effectPhase (controlWord .halt) 0 a b s = ⟨s.halt, []⟩ := by
  simp [effectPhase, controlWord, pushSp, popSp, aluData, writeData, regWriteData, muxWriteIf, nextPc, State.halt]

theorem effectPhase_ldi (s : State) (ra : RegIndex) (imm : Byte) :
    effectPhase (controlWord .ldi) 2 ra.byte imm s = ⟨(s.setReg ra imm).setPc (s.pc + 3), []⟩ := by
  simp [effectPhase, controlWord, pushSp, popSp, aluData, writeData, regWriteData, muxWriteIf, nextPc, ofNat_pcNext,
    State.setReg, State.setPc]

theorem effectPhase_prn (s : State) (ra : RegIndex) (b : Byte) :
    effectPhase (controlWord .prn) 1 ra.byte b s = ⟨(s.emit (s.reg ra)).setPc (s.pc + 2), [.emit (s.reg ra)]⟩ := by
  simp [effectPhase, controlWord, pushSp, popSp, aluData, writeData, regWriteData, muxWriteIf, nextPc, ofNat_pcNext,
    State.emit, State.setPc, State.reg]

/-- The rows of `PUSH` and `CALL`: the register is read after the stack pointer is written (R128, D17). -/
theorem effectPhase_push {data : DataAccess} {pc : PcSource} {s : State} {ra : RegIndex} {b v p : Byte}
    (hv : writeData ⟨.a, none, .none, some .push, data, false, pc, false⟩ 1 (some (s.decSp.reg ra)) s = some v)
    (hdata : data ≠ .read)
    (hp : nextPc ⟨.a, none, .none, some .push, data, false, pc, false⟩ 1 (some (s.decSp.reg ra)) none s = p) :
    effectPhase ⟨.a, none, .none, some .push, data, false, pc, false⟩ 1 ra.byte b s =
      ⟨(s.push fun _ => v).setPc p, [.memWrite s.decSp.sp v]⟩ := by
  have hsp : s.x[7] = s.sp := rfl
  have hx : s.x.set 7 (s.sp - 1#8) = s.decSp.x := rfl
  have hreg : s.decSp.x[ra.val] = s.decSp.reg ra := rfl
  simp [effectPhase, pushSp, popSp, aluData, readData, regWriteData, muxWriteIf, stackUnit_push, hdata, hsp, hx, hreg,
    hv, hp, State.setPc, State.push, State.write]

theorem effectPhase_pop (s : State) (ra : RegIndex) (b : Byte) :
    effectPhase (controlWord .pop) 1 ra.byte b s =
      ⟨((s.setReg ra (s.read s.sp)).incSp).setPc (s.pc + 2), [.memRead s.sp]⟩ := by
  simp [effectPhase, controlWord, pushSp, popSp, aluData, readData, writeData, regWriteData, muxWriteIf, nextPc,
    ofNat_pcNext, stackUnit_pop, State.setReg, State.setPc, State.reg, State.incSp, State.sp, spIndex]

theorem effectPhase_ret (a b : Byte) (s : State) :
    effectPhase (controlWord .ret) 0 a b s = ⟨(s.setPc (s.read s.sp)).incSp, [.memRead s.sp]⟩ := by
  simp [effectPhase, controlWord, pushSp, popSp, aluData, readData, writeData, regWriteData, muxWriteIf, nextPc,
    stackUnit_pop, State.setReg, State.setPc, State.reg, State.incSp, State.sp, spIndex]

/-- The rows of the three jumps, taken. -/
theorem effectPhase_branch_taken {kind : BranchKind} {reads : OperandReads} {s : State} (ra : RegIndex) (b : Byte)
    (h : branchUnit kind s.fl.e = true) :
    effectPhase ⟨reads, none, .none, none, .none, false, .branch kind, false⟩ 1 ra.byte b s =
      ⟨s.setPc (s.reg ra), []⟩ := by
  rw [effectPhase_of_onlyPc ⟨rfl, rfl, rfl, rfl, rfl, rfl⟩, muxRead_byte]
  simp [nextPc, h, State.reg]

/-- The rows of the conditional jumps, not taken. -/
theorem effectPhase_branch_not_taken {kind : BranchKind} {reads : OperandReads} {s : State} (a b : Byte)
    (h : branchUnit kind s.fl.e = false) :
    effectPhase ⟨reads, none, .none, none, .none, false, .branch kind, false⟩ 1 a b s =
      ⟨s.setPc (s.pc + 2), []⟩ := by
  rw [effectPhase_of_onlyPc ⟨rfl, rfl, rfl, rfl, rfl, rfl⟩]
  simp [nextPc, h, ofNat_pcNext]

/-! ## The phases of a named operation -/

theorem ChecksAs.imp {cw : ControlWord} {n : Nat} {a b : Byte} {i : Instr} {s : State} {p q : Prop}
    (h : ChecksAs cw n a b i s p) (hpq : p → q) : ChecksAs cw n a b i s q :=
  Or.imp_right (And.imp_right hpq) h

/-- The effect phase of `op` completes the instruction built from `a` and `b`, and after the reads of its bytes the
events are the instruction's accesses in order. -/
def EffectsAs (op : Op) (a b : Byte) (s : State) : Prop :=
  Completes (op.build a b) s (effectPhase (controlWord op) op.arity a b s).state ∧
    .memRead s.pc :: operandReads op.arity s ++ (effectPhase (controlWord op) op.arity a b s).events =
      expectedEvents (op.build a b) s

/-- `EffectsAs` from the effect phase's result, the operand bytes being there. -/
theorem EffectsAs.of_result {op : Op} {a b : Byte} {s t : State} {es : List PortEvent}
    (hn : s.pc.toNat + op.arity ≤ 255) (h : effectPhase (controlWord op) op.arity a b s = ⟨t, es⟩)
    (hc : Completes (op.build a b) s t)
    (he : .memRead s.pc :: ((List.range' 1 op.arity).map fun k => .memRead (s.pc + BitVec.ofNat 8 k)) ++ es =
      expectedEvents (op.build a b) s) : EffectsAs op a b s := by
  rw [EffectsAs, h, operandReads_eq hn]
  exact ⟨hc, he⟩

/-- Where the operand bytes are there, the block's check phase raises the fault that the instruction takes, or its
effect phase completes the instruction. -/
theorem block_checks_then_effects (op : Op) (a b : Byte) {s : State} (hn : s.pc.toNat + op.arity ≤ 255) :
    ChecksAs (controlWord op) op.arity a b (op.build a b) s (EffectsAs op a b s) := by
  cases op with
  | add =>
    refine (runsRegPair_add.checksAs (fun _ => rfl) rfl (fun _ => rfl) a b s).imp ?_
    rintro ⟨ra, rb, rfl, rfl, hp⟩
    exact .of_result hn (effectPhase_aluResult (aluUnit_add _ _)) ⟨ra, rb, rfl, rfl, hp, rfl⟩ rfl
  | mul =>
    refine (runsRegPair_mul.checksAs (fun _ => rfl) rfl (fun _ => rfl) a b s).imp ?_
    rintro ⟨ra, rb, rfl, rfl, hp⟩
    exact .of_result hn (effectPhase_aluResult (aluUnit_mul _ _)) ⟨ra, rb, rfl, rfl, hp, rfl⟩ rfl
  | cmp =>
    refine (runsRegPair_cmp.checksAs (fun _ => rfl) rfl (fun _ => rfl) a b s).imp ?_
    rintro ⟨ra, rb, rfl, rfl, hp⟩
    exact .of_result hn (effectPhase_cmp s ra rb) ⟨ra, rb, rfl, rfl, hp, rfl⟩ rfl
  | halt =>
    exact .inr ⟨rfl, .of_result hn (effectPhase_halt a b s) rfl rfl⟩
  | ldi =>
    refine ((runsRegThenAdvance_ldi b).checksAs (by decide) (fun _ => rfl) rfl (fun _ => rfl) a b s).imp ?_
    rintro ⟨ra, rfl, hp⟩
    exact .of_result hn (effectPhase_ldi s ra b) ⟨ra, rfl, hp, rfl⟩ rfl
  | prn =>
    refine (runsRegThenAdvance_prn.checksAs (by decide) (fun _ => rfl) rfl (fun _ => rfl) a b s).imp ?_
    rintro ⟨ra, rfl, hp⟩
    exact .of_result hn (effectPhase_prn s ra b) ⟨ra, rfl, hp, rfl⟩ (by simp [expectedEvents, Op.build, Op.arity])
  | push =>
    refine (runsRegThenAdvance_push.checksAs (by decide) (fun _ => rfl) rfl (fun _ => rfl) a b s).imp ?_
    rintro ⟨ra, rfl, hp⟩
    exact .of_result hn (effectPhase_push rfl nofun (ofNat_pcNext s.pc 1)) ⟨ra, rfl, hp, rfl⟩
      (by simp [expectedEvents, Op.build, Op.arity])
  | pop =>
    refine (runsRegThenAdvance_pop.checksAs (by decide) (fun _ => rfl) rfl (fun _ => rfl) a b s).imp ?_
    rintro ⟨ra, rfl, hp⟩
    exact .of_result hn (effectPhase_pop s ra b) ⟨ra, rfl, hp, rfl⟩ rfl
  | call =>
    refine (runsRegThenAdvance_call.checksAs (by decide) (fun _ => rfl) rfl (fun _ => rfl) a b s).imp ?_
    rintro ⟨ra, rfl, hp⟩
    exact .of_result hn (effectPhase_push (congrArg some (ofNat_pcNext s.pc 1)) nofun rfl) ⟨ra, rfl, hp, rfl⟩ rfl
  | ret =>
    exact .inr ⟨rfl, .of_result hn (effectPhase_ret a b s) rfl rfl⟩
  | jmp =>
    refine (runsBranch_jmp.checksAs (fun _ => rfl) rfl (fun _ => rfl) a b s).imp ?_
    rintro (⟨-, ra, rfl⟩ | ⟨hfalse, -⟩)
    · exact .of_result hn (effectPhase_branch_taken ra b rfl) ⟨ra, rfl, rfl⟩ rfl
    · cases hfalse
  | jeq =>
    have hchecks := runsBranch_jeq.checksAs (cw := controlWord .jeq) (fun _ => Bool.or_false _) rfl
      (fun _ => Bool.or_false _) a b s
    refine hchecks.imp ?_
    rintro (⟨he, ra, rfl⟩ | ⟨he, hp⟩)
    · exact .of_result hn (effectPhase_branch_taken ra b he) (.inl ⟨he, ra, rfl, rfl⟩) rfl
    · exact .of_result hn (effectPhase_branch_not_taken a b he) (.inr ⟨he, hp, rfl⟩) rfl
  | jne =>
    have hchecks := runsBranch_jne.checksAs (cw := controlWord .jne) (fun _ => Bool.or_false _) rfl
      (fun _ => Bool.or_false _) a b s
    refine hchecks.imp ?_
    rintro (⟨he, ra, rfl⟩ | ⟨he, hp⟩)
    · exact .of_result hn (effectPhase_branch_taken ra b he) (.inl ⟨takenJne_eq_true_iff.mp he, ra, rfl, rfl⟩) rfl
    · exact .of_result hn (effectPhase_branch_not_taken a b he) (.inr ⟨takenJne_eq_false_iff.mp he, hp, rfl⟩) rfl

end Sys2Proof.Machine


/-! SUPPORT. The statements about the block: its step is the step of the instruction rules, its events account for
memory and output, and the accesses come in the order of the instruction. -/

namespace Sys2Proof.Machine

/-! ## One step of the block -/

/-- Port events that are one to three reads: the accesses of a step that faults (R43). -/
structure ReadsOnly (es : List PortEvent) : Prop where
  memory : ∀ m, applyWrites m es = m
  emitted : emittedValues es = []
  writes : countWrites es = 0
  one_le_reads : 1 ≤ countReads es
  reads_le_three : countReads es ≤ 3

@[simp] theorem operandReads_zero (s : State) : operandReads 0 s = [] := rfl

/-- The read of the instruction byte and of the operand bytes that exist. -/
theorem readsOnly_fetch (addr : Byte) {n : Nat} (hn : n ≤ 2) (s : State) :
    ReadsOnly (.memRead addr :: operandReads n s) := by
  have hreads := operandReads_events n s
  obtain ⟨-, hemitted, hwrites, hcount⟩ := hreads []
  exact ⟨fun m => (hreads m).1, hemitted, hwrites, Nat.le_add_left 1 _, by rw [countReads]; omega⟩

/-- One step of the block is refused as a step is, takes the fault that a step takes after reads alone, or completes
the fetched instruction with its accesses in order. -/
theorem blockStep_cases (ids : OpcodeIds) (s : State) :
    (stepWith ids s = .refused .halted ∧ blockStep ids s = none) ∨
    (∃ f es, stepWith ids s = .next (takeFault f s) ∧ blockStep ids s = some ⟨takeFault f s, es⟩ ∧ ReadsOnly es) ∨
    (∃ i t, fetchInstr ids s = .ok i ∧ Completes i s t ∧ stepWith ids s = .next t ∧
      blockStep ids s = some ⟨t, expectedEvents i s⟩) := by
  cases hrun : s.run with
  | halted => exact .inl ⟨stepWith_halted ids hrun, by simp only [blockStep, hrun]⟩
  | running =>
    refine .inr ?_
    obtain ⟨op, hid, hlines⟩ | ⟨hid, hlines⟩ | ⟨hid, hlines⟩ | ⟨hid, hlines⟩ :=
      identify_dispatchLines_cases ids (s.read s.pc)
    case inr.inl | inr.inr.inl | inr.inr.inr =>
      exact .inl ⟨_, _, stepWith_of_identify_error hrun hid, by simp [blockStep, hrun, hlines, DispatchLines.fault,
        Fault.ofDispatch], readsOnly_fetch s.pc (n := 0) (by decide) s⟩
    have hfetch := fetchInstr_eq ids s
    simp only [hid] at hfetch
    by_cases hn : s.pc.toNat + op.arity ≤ 255
    · rw [if_pos hn] at hfetch
      have hstep : stepWith ids s = exec (op.build (s.read (s.pc + 1)) (s.read (s.pc + 2))) s := by
        simp only [stepWith, hrun, hfetch]
      obtain ⟨f, hcheck, hfault⟩ | ⟨hcheck, hcompletes, hevents⟩ :=
        block_checks_then_effects op (s.read (s.pc + 1)) (s.read (s.pc + 2)) hn
      · refine .inl ⟨f, _, hstep.trans hfault, ?_, readsOnly_fetch s.pc (arity_le_two op) s⟩
        simp only [blockStep, hrun, hlines, DispatchLines.fault, Nat.not_lt.mpr hn, hcheck, if_false,
          Bool.false_eq_true]
      · refine .inr ⟨_, _, hfetch, hcompletes, hstep.trans (Completes.exec_eq hcompletes), ?_⟩
        rw [← hevents]
        simp only [blockStep, hrun, hlines, DispatchLines.fault, Nat.not_lt.mpr hn, hcheck, if_false,
          Bool.false_eq_true]
    · rw [if_neg hn] at hfetch
      refine .inl ⟨.memRangeFault 256, _, by simp only [stepWith, hrun, hfetch], ?_,
        readsOnly_fetch s.pc (arity_le_two op) s⟩
      simp only [blockStep, hrun, hlines, DispatchLines.fault, Nat.not_le.mp hn, if_true, if_false,
        Bool.false_eq_true]

/-- Settles O48: in each of the three cases the two steps are the same. -/
theorem blockComputesTheStep : Obligations.BlockComputesTheStep := by
  intro ids s
  obtain ⟨hstep, hblock⟩ | ⟨f, es, hstep, hblock, -⟩ | ⟨i, t, -, -, hstep, hblock⟩ := blockStep_cases ids s
  all_goals rw [hstep, hblock]

/-! ## The events at the ports -/

/-- The accesses of a completed instruction account for what it does to memory and to `OUT`. -/
theorem Completes.events_account {i : Instr} {s t : State} (h : Completes i s t) :
    t.mem = applyWrites s.mem (expectedEvents i s) ∧ t.out = s.out ++ emittedValues (expectedEvents i s) := by
  cases i <;> simp only [Completes] at h
  case add | mul | cmp =>
    obtain ⟨_, _, -, -, -, rfl⟩ := h
    exact ⟨rfl, (List.append_nil _).symm⟩
  case halt | ret =>
    subst h
    exact ⟨rfl, (List.append_nil _).symm⟩
  case ldi | pop | call =>
    obtain ⟨_, -, -, rfl⟩ := h
    exact ⟨rfl, (List.append_nil _).symm⟩
  case prn | push =>
    obtain ⟨_, rfl, -, rfl⟩ := h
    simp [expectedEvents, applyWrites, emittedValues, State.push_mem]
  case jmp =>
    obtain ⟨_, -, rfl⟩ := h
    exact ⟨rfl, (List.append_nil _).symm⟩
  case jeq | jne => rcases h with ⟨-, _, -, rfl⟩ | ⟨-, -, rfl⟩ <;> exact ⟨rfl, (List.append_nil _).symm⟩

/-- Settles O49: a fault leaves memory and `OUT` alone after reads alone, and a completed instruction is accounted for
by its accesses. -/
theorem portEventsAccountForMemoryAndOutput : Obligations.PortEventsAccountForMemoryAndOutput := by
  intro ids s r hr
  obtain ⟨-, hblock⟩ | ⟨f, es, -, hblock, hreads⟩ | ⟨i, t, -, hc, -, hblock⟩ := blockStep_cases ids s
  · simp [hblock] at hr
  · obtain rfl := Option.some.inj (hblock.symm.trans hr)
    simp [hreads.memory, hreads.emitted]
  · obtain rfl := Option.some.inj (hblock.symm.trans hr)
    exact hc.events_account

/-- Settles O50: without a cause before the step, the state after it tells a taken fault from a completion, which keeps
the cause. -/
theorem accessesOfAnInstructionInOrder : Obligations.AccessesOfAnInstructionInOrder := by
  refine ⟨fun ids s r i hr hi _ hno => ?completes, fun ids s r f hr hcause hf => ?faults⟩
  case completes =>
    obtain ⟨-, hblock⟩ | ⟨f, es, -, hblock, -⟩ | ⟨j, t, hj, -, -, hblock⟩ := blockStep_cases ids s
    · simp [hblock] at hr
    · obtain rfl := Option.some.inj (hblock.symm.trans hr)
      exact absurd rfl (hno f)
    · obtain rfl := Option.some.inj (hblock.symm.trans hr)
      obtain rfl := Except.ok.inj (hj.symm.trans hi)
      rfl
  case faults =>
    obtain ⟨-, hblock⟩ | ⟨g, es, -, hblock, hreads⟩ | ⟨j, t, -, hc, -, hblock⟩ := blockStep_cases ids s
    · simp [hblock] at hr
    · obtain rfl := Option.some.inj (hblock.symm.trans hr)
      exact ⟨hreads.writes, hreads.emitted, hreads.one_le_reads, hreads.reads_le_three⟩
    · obtain rfl := Option.some.inj (hblock.symm.trans hr)
      have hkept : f.cause = .none := (congrArg State.cause hf).symm.trans (hc.cause_eq.trans hcause)
      exact absurd hkept f.cause_code_range.1

/-- Settles O51: with `rst` low the clocked block takes the block's step, which is the step, or holds where there is
none. -/
theorem clockedBlockResetsStepsOrHolds : Obligations.ClockedBlockResetsStepsOrHolds := by
  refine ⟨fun _ _ => rfl, fun ids s t hstep => ?_, fun ids s hhalted => ?_⟩
  · rw [blockComputesTheStep] at hstep
    cases hblock : blockStep ids s with
    | none => simp [hblock] at hstep
    | some r => simpa [clockBlock, hblock] using hstep
  · simp [clockBlock, blockStep, hhalted]

end Sys2Proof.Machine


/-! SUPPORT. The statements about memory as state: the contents of the 256 cells and their canonical memory, and the
memory of a launch. -/

namespace Sys2Proof.Machine

/-! ## Canonical memories that read alike are equal -/

/-- A canonical memory reads as unlisted outside the 256 cells. -/
theorem Memory.get_outside {m : Memory} (hw : Memory.wf m) {a : Nat} (ha : Config.memSize ≤ a) :
    Memory.get a m = Config.unlistedByte := by
  obtain ⟨-, hcells⟩ := hw
  induction m with
  | nil => rfl
  | cons c m ih =>
    have hc : c.1 ≠ a := Nat.ne_of_lt (Nat.lt_of_lt_of_le (hcells c (List.mem_cons_self ..)).1 ha)
    simpa [Memory.get, hc] using ih fun d hd => hcells d (List.mem_cons_of_mem _ hd)

/-- The cells of a canonical memory after the first one: canonical, and all of them above the first. -/
theorem Memory.wf_cons {c : Host.Cell} {m : Memory} (hw : Memory.wf (c :: m)) :
    Memory.wf m ∧ (∀ d ∈ m, c.1 < d.1) ∧ c.2 ≠ Config.unlistedByte := by
  obtain ⟨hrising, hcells⟩ := hw
  obtain ⟨hfirst, hrest⟩ := List.pairwise_cons.mp hrising
  exact ⟨⟨hrest, fun d hd => hcells d (List.mem_cons_of_mem _ hd)⟩, hfirst, (hcells c (List.mem_cons_self ..)).2⟩

/-- Where two canonical memories read alike, the first cell of the one does not lie below that of the other, which
would read as unlisted there. -/
theorem Memory.first_le_of_get_eq {c d : Host.Cell} {m₁ m₂ : Memory} (h₁ : Memory.wf (c :: m₁))
    (h₂ : Memory.wf (d :: m₂)) (h : Memory.get c.1 (c :: m₁) = Memory.get c.1 (d :: m₂)) : d.1 ≤ c.1 := by
  refine Nat.le_of_not_lt fun hlt => ?_
  obtain ⟨-, habove, -⟩ := Memory.wf_cons h₂
  have hunlisted : Memory.get c.1 (d :: m₂) = Config.unlistedByte := by
    refine Memory.get_below fun e he => ?_
    rcases List.mem_cons.mp he with rfl | he
    · exact hlt
    · exact Nat.lt_trans hlt (habove e he)
  have hlisted : Memory.get c.1 (c :: m₁) = c.2 := by simp [Memory.get]
  exact (Memory.wf_cons h₁).2.2 (hlisted.symm.trans (h.trans hunlisted))

/-- Canonical memories that read alike everywhere are equal: cell by cell, from the lowest address up. -/
theorem Memory.ext_of_wf {m₁ m₂ : Memory} (h₁ : Memory.wf m₁) (h₂ : Memory.wf m₂)
    (h : ∀ a, Memory.get a m₁ = Memory.get a m₂) : m₁ = m₂ := by
  induction m₁ generalizing m₂ with
  | nil =>
    cases m₂ with
    | nil => rfl
    | cons d m₂ => exact absurd (by simpa [Memory.get] using (h d.1).symm) (Memory.wf_cons h₂).2.2
  | cons c m₁ ih =>
    cases m₂ with
    | nil => exact absurd (by simpa [Memory.get] using h c.1) (Memory.wf_cons h₁).2.2
    | cons d m₂ =>
      have haddr : c.1 = d.1 := Nat.le_antisymm (Memory.first_le_of_get_eq h₂ h₁ (h d.1).symm)
        (Memory.first_le_of_get_eq h₁ h₂ (h c.1))
      obtain ⟨hw₁, habove₁, -⟩ := Memory.wf_cons h₁
      obtain ⟨hw₂, habove₂, -⟩ := Memory.wf_cons h₂
      have hbyte : c.2 = d.2 := by simpa [Memory.get, haddr] using h c.1
      have htail : m₁ = m₂ := by
        refine ih hw₁ hw₂ fun a => ?_
        rcases Nat.lt_trichotomy a c.1 with hlt | rfl | hgt
        · rw [Memory.get_below fun e he => Nat.lt_trans hlt (habove₁ e he),
            Memory.get_below fun e he => Nat.lt_trans (haddr ▸ hlt) (habove₂ e he)]
        · rw [Memory.get_below habove₁, Memory.get_below (haddr ▸ habove₂)]
        · simpa [Memory.get, ← haddr, Nat.ne_of_lt hgt] using h a
      rw [htail, Prod.ext haddr hbyte]

/-! ## Every contents is some canonical memory -/

/-- The canonical memory with these contents: all 256 bytes placed from address 0. -/
def Memory.ofContents (contents : Byte → Byte) : Memory :=
  placeBytes 0 ((List.range 256).map fun k => contents (BitVec.ofNat 8 k)) []

theorem Memory.nil_wf : Memory.wf [] := ⟨.nil, nofun⟩

theorem Memory.ofContents_wf (contents : Byte → Byte) : Memory.wf (Memory.ofContents contents) :=
  placeBytes_wf _ 0 Memory.nil_wf

theorem Memory.get_ofContents (contents : Byte → Byte) (addr : Byte) :
    Memory.get addr.toNat (Memory.ofContents contents) = contents addr := by
  have haddr : addr.toNat < 256 := addr.isLt
  rw [Memory.ofContents, get_placeBytes _ 0 (by simp [Config.memSize]) Memory.nil_wf]
  simp [haddr]

/-- Settles O39: the bytes placed from address 0 have any contents, and equality follows cell by cell. -/
theorem memoryIsItsTwoHundredFiftySixCells : Obligations.MemoryIsItsTwoHundredFiftySixCells := by
  refine ⟨fun contents => ⟨_, Memory.ofContents_wf contents, Memory.get_ofContents contents⟩,
    fun m₁ m₂ h₁ h₂ h => Memory.ext_of_wf h₁ h₂ fun a => ?_⟩
  rcases Nat.lt_or_ge a Config.memSize with ha | ha
  · have haddr : (BitVec.ofNat 8 a).toNat = a := (BitVec.toNat_ofNat a 8).trans (Nat.mod_eq_of_lt ha)
    simpa only [haddr] using h (BitVec.ofNat 8 a)
  · rw [Memory.get_outside h₁ ha, Memory.get_outside h₂ ha]

/-! ## A launch -/

/-- Settles O38: the image is placed from address 0 over the rest, and nothing else differs from the reset state. -/
theorem launchHoldsTheImage : Obligations.LaunchHoldsTheImage := by
  refine ⟨fun rest image hw hmin hmax => ⟨{ State.reset with mem := placeBytes 0 image rest }, ?launched,
    placeBytes_wf image 0 hw, rfl, fun addr => ?cell⟩, fun rest image hlen => ?refused⟩
  case launched => exact if_pos ⟨hmin, hmax⟩
  case cell =>
    have hfits : 0 + image.length ≤ Config.memSize := by rwa [Nat.zero_add]
    exact (get_placeBytes image 0 hfits hw addr.toNat).trans (if_pos (Nat.zero_le _))
  case refused =>
    refine if_neg fun ⟨hmin, hmax⟩ => ?_
    have hsize : image.length ≤ 256 := hmax
    omega

end Sys2Proof.Machine


/-! SUPPORT. The statements about the fetch as decoding: the bytes at `pc` as a list, and the machine's fetch as the
decoding of that list with each way to fail named as a fault. -/

namespace Sys2Proof.Machine

/-! ## The bytes at `pc` as a list -/

/-- Byte `k` at `pc` is there where its address is inside the 256 cells. -/
theorem codeBytes_getElem? (s : State) {k : Nat} (hk : k ≤ 2) :
    s.codeBytes[k]? = if s.pc.toNat + k ≤ 255 then some (s.read (s.pc + BitVec.ofNat 8 k)) else none := by
  have hpc : s.pc.toNat ≤ 255 := by omega
  have hrange : List.range 3 = [0, 1, 2] := rfl
  have hroom : (s.pc.toNat + 1 ≤ 255 ∧ s.pc.toNat + 2 ≤ 255) ∨ (s.pc.toNat + 1 ≤ 255 ∧ ¬ s.pc.toNat + 2 ≤ 255) ∨
      (¬ s.pc.toNat + 1 ≤ 255 ∧ ¬ s.pc.toNat + 2 ≤ 255) := by omega
  rcases hroom with ⟨h1, h2⟩ | ⟨h1, h2⟩ | ⟨h1, h2⟩
  all_goals
    obtain rfl | rfl | rfl : k = 0 ∨ k = 1 ∨ k = 2 := by omega
    all_goals simp [State.codeBytes, hrange, hpc, h1, h2, -Nat.reduceLeDiff]

theorem codeBytes_eq_cons (s : State) : ∃ tail, s.codeBytes = s.read s.pc :: tail := by
  have hpc : s.pc.toNat + 0 ≤ 255 := by omega
  have hhead := codeBytes_getElem? s (k := 0) (by decide)
  rw [if_pos hpc, BitVec.add_zero] at hhead
  cases hcode : s.codeBytes with
  | nil => simp [hcode] at hhead
  | cons ir tail =>
    rw [hcode] at hhead
    exact ⟨tail, by rw [Option.some.inj hhead]⟩

theorem operandAt_codeBytes (s : State) {k : Nat} (hk : k ≤ 2) :
    operandAt s.codeBytes k =
      if s.pc.toNat + k ≤ 255 then .ok (s.read (s.pc + BitVec.ofNat 8 k)) else .error (.truncated k) := by
  rw [operandAt, codeBytes_getElem? s hk]
  by_cases h : s.pc.toNat + k ≤ 255
  · rw [if_pos h, if_pos h]
  · rw [if_neg h, if_neg h]

/-! ## The ways a decoding fails -/

/-- `decodeWith` fails on the first byte, on operand byte 1, or on operand byte 2 where byte 1 is there. -/
theorem decodeWith_error {ε : Type} {ids : OpcodeIds} {reject : DispatchFault → ε} {operand : Nat → Except ε Byte}
    {ir : Byte} {e : ε} (h : decodeWith ids reject operand ir = .error e) :
    (∃ f, e = reject f) ∨ operand 1 = .error e ∨
      ∃ a, operand 1 = .ok a ∧ operand 2 = .error e := by
  cases hid : identify ids ir with
  | error f =>
    rw [decodeWith_reject hid] at h
    exact .inl ⟨f, (Except.error.inj h).symm⟩
  | ok op =>
    refine .inr ?_
    simp only [decodeWith, hid] at h
    split at h
    · cases h
    · split at h
      next h1 => exact .inl (h1.trans (congrArg _ (Except.error.inj h)))
      · cases h
    · split at h
      next h1 => exact .inl (h1.trans (congrArg _ (Except.error.inj h)))
      next a h1 =>
        split at h
        next h2 => exact .inr ⟨a, h1, h2.trans (congrArg _ (Except.error.inj h))⟩
        · cases h

/-- Naming the failures of dispatch and of the operands anew names those of the decoding anew. -/
theorem decodeWith_mapError {ε ε' : Type} (ids : OpcodeIds) (reject : DispatchFault → ε)
    (operand : Nat → Except ε Byte) (ir : Byte) (g : ε → ε') :
    (decodeWith ids reject operand ir).mapError g =
      decodeWith ids (fun f => g (reject f)) (fun k => (operand k).mapError g) ir := by
  simp only [decodeWith]
  cases identify ids ir with
  | error f => rfl
  | ok op =>
    dsimp only
    rcases op.arity with _ | _ | n
    · rfl
    · cases operand 1 <;> rfl
    · cases operand 1 with
      | error e => rfl
      | ok a => cases operand 2 <;> rfl

/-! ## The fetch is the decoding of the bytes at `pc` -/

/-- The fault that the machine takes where the decoding of the bytes at `pc` fails (R69, R135). -/
def fetchFault (pc : Byte) : DecodeError → Fault
  | .dispatch f => Fault.ofDispatch f
  | .truncated k => .memRangeFault (BitVec.ofNat 9 (pc.toNat + k))

theorem fetch_eq_operandAt (s : State) {k : Nat} (hk : k ≤ 2) :
    s.fetch k = (operandAt s.codeBytes k).mapError (fetchFault s.pc) := by
  rw [operandAt_codeBytes s hk]
  by_cases h : s.pc.toNat + k ≤ 255
  · rw [fetch_ok (by omega) h, if_pos h]
    rfl
  · rw [fetch_error (by omega) (Nat.not_le.mp h), if_neg h]
    rfl

/-- The decoding of the bytes at `pc`. -/
def decodeAtPc (ids : OpcodeIds) (s : State) : Except DecodeError Instr :=
  decodeWith ids .dispatch (operandAt s.codeBytes) (s.read s.pc)

theorem decode_codeBytes (ids : OpcodeIds) (s : State) :
    decode ids s.codeBytes = (decodeAtPc ids s).map fun i => (i, s.codeBytes.drop (1 + i.op.arity)) := by
  obtain ⟨tail, htail⟩ := codeBytes_eq_cons s
  rw [decodeAtPc, htail]
  simp only [decode]
  cases decodeWith ids .dispatch (operandAt (s.read s.pc :: tail)) (s.read s.pc) <;> rfl

theorem decodeAtPc_of_decode_ok {ids : OpcodeIds} {s : State} {i : Instr} {rest : List Byte}
    (h : decode ids s.codeBytes = .ok (i, rest)) : decodeAtPc ids s = .ok i := by
  rw [decode_codeBytes] at h
  cases hd : decodeAtPc ids s with
  | ok j =>
    rw [hd] at h
    rw [(Prod.mk.inj (Except.ok.inj h)).1]
  | error e =>
    rw [hd] at h
    cases h

theorem decodeAtPc_of_decode_error {ids : OpcodeIds} {s : State} {e : DecodeError}
    (h : decode ids s.codeBytes = .error e) : decodeAtPc ids s = .error e := by
  rw [decode_codeBytes] at h
  cases hd : decodeAtPc ids s with
  | ok j =>
    rw [hd] at h
    cases h
  | error e' =>
    rw [hd] at h
    rw [Except.error.inj h]

theorem fetchInstr_eq_decodeAtPc (ids : OpcodeIds) (s : State) :
    fetchInstr ids s = (decodeAtPc ids s).mapError (fetchFault s.pc) := by
  rw [decodeAtPc, decodeWith_mapError, fetchInstr]
  exact decodeWith_congr ids _ _ (fetch_eq_operandAt s (by decide)) (fetch_eq_operandAt s (by decide))

/-- The missing operand byte is always the one at 256, the first past the end of memory (R69). -/
theorem pc_add_of_truncated {ids : OpcodeIds} {s : State} {k : Nat}
    (h : decodeAtPc ids s = .error (.truncated k)) : s.pc.toNat + k = 256 := by
  have hpc : s.pc.toNat ≤ 255 := by omega
  have hone := operandAt_codeBytes s (k := 1) (by decide)
  have htwo := operandAt_codeBytes s (k := 2) (by decide)
  obtain ⟨f, hreject⟩ | h1 | ⟨a, h1, h2⟩ := decodeWith_error h
  · cases hreject
  · rw [h1] at hone
    split at hone
    · cases hone
    · obtain rfl : k = 1 := by simpa using hone
      omega
  · rw [h1] at hone
    rw [h2] at htwo
    split at hone
    · split at htwo
      · cases htwo
      · obtain rfl : k = 2 := by simpa using htwo
        omega
    · cases hone

/-! ## The obligations -/

/-- Settles O10: the fetch answers what the bytes at `pc` decode to. -/
theorem stepRunsTheDecodedInstruction : Obligations.StepRunsTheDecodedInstruction := by
  refine ⟨fun ids s i rest hrun h => ?_, fun _ => rfl⟩
  have hfetch := fetchInstr_eq_decodeAtPc ids s
  rw [decodeAtPc_of_decode_ok h] at hfetch
  simp only [stepWith, hrun, hfetch, Except.mapError]

/-- Settles O11: the fetch fails where the decoding of the bytes at `pc` does, with the fault that names the failure. -/
theorem stepTakesTheFaultOfTheFetch : Obligations.StepTakesTheFaultOfTheFetch := by
  intro ids s hrun
  have hstep : ∀ e, decode ids s.codeBytes = .error e → stepWith ids s = .next (takeFault (fetchFault s.pc e) s) := by
    intro e h
    have hfetch := fetchInstr_eq_decodeAtPc ids s
    rw [decodeAtPc_of_decode_error h] at hfetch
    simp only [stepWith, hrun, hfetch, Except.mapError]
  refine ⟨fun f h => hstep _ h, fun k h => ?_⟩
  have hk := pc_add_of_truncated (decodeAtPc_of_decode_error h)
  refine ⟨hk, ?_⟩
  rw [hstep _ h, fetchFault, hk]
  rfl

/-- Settles O14: dispatch finds the operation and the arity check rejects its count. -/
theorem wrongOperandCountHalts : Obligations.WrongOperandCountHalts := by
  intro ids s op hrun hdispatch hcount
  have hid : identify ids (s.read s.pc) = .error (.illegalArity (s.read s.pc)) := by
    simp only [identify, hdispatch, hcount, if_false]
  exact ⟨_, stepWith_of_identify_error hrun hid, rfl, rfl⟩

end Sys2Proof.Machine


/-! SUPPORT. The statement about the registers an instruction uses: what it leaves unwritten, the commuting of its
meaning with a register it does not use, and the overwriting of one that it writes and does not read. -/

namespace Sys2Proof.Machine

/-! ## The registers a completed instruction leaves alone -/

/-- A register outside the writes column is unchanged (R13). -/
theorem Completes.reg_eq {i : Instr} {s t : State} {r : RegIndex} (h : Completes i s t) (hw : ¬ WritesReg i r) :
    t.reg r = s.reg r := by
  cases i <;> simp only [Completes] at h <;> simp only [WritesReg, not_or] at hw
  case add | mul =>
    obtain ⟨ra, _, rfl, -, -, rfl⟩ := h
    exact State.setReg_reg_ne s _ fun e => hw (congrArg RegIndex.byte e)
  case cmp =>
    obtain ⟨_, _, -, -, -, rfl⟩ := h
    rfl
  case halt =>
    subst h
    rfl
  case ldi =>
    obtain ⟨ra, rfl, -, rfl⟩ := h
    exact State.setReg_reg_ne s _ fun e => hw (congrArg RegIndex.byte e)
  case prn =>
    obtain ⟨_, -, -, rfl⟩ := h
    rfl
  case push | call =>
    obtain ⟨_, -, -, rfl⟩ := h
    exact (push_setPc_frame s _ _).1 r hw
  case pop =>
    obtain ⟨ra, rfl, -, rfl⟩ := h
    exact pop_reg_ne s _ _ (fun e => hw.1 (congrArg RegIndex.byte e)) hw.2
  case ret =>
    subst h
    exact (setPc_incSp_frame s _).1 r hw
  case jmp =>
    obtain ⟨_, -, rfl⟩ := h
    rfl
  case jeq | jne => rcases h with ⟨-, _, -, rfl⟩ | ⟨-, -, rfl⟩ <;> rfl

/-! ## Commuting with a register write -/

theorem State.setReg_comm (s : State) {q r : RegIndex} (v w : Byte) (h : q ≠ r) :
    (s.setReg r v).setReg q w = (s.setReg q w).setReg r v := by
  have hval : r.val ≠ q.val := fun e => h (Fin.ext e.symm)
  simp only [State.setReg, Vector.set_comm _ _ hval]

/-- The second of two writes to one register stands. -/
theorem State.setReg_setReg (s : State) (r : RegIndex) (v w : Byte) :
    (s.setReg r v).setReg r w = s.setReg r w := by
  simp only [State.setReg, Vector.set_set]

theorem State.setReg_sp_ne (s : State) {r : RegIndex} (v : Byte) (h : r ≠ spIndex) : (s.setReg r v).sp = s.sp :=
  State.setReg_reg_ne s v h.symm

theorem State.decSp_setReg (s : State) {r : RegIndex} (v : Byte) (h : r ≠ spIndex) :
    (s.setReg r v).decSp = s.decSp.setReg r v := by
  rw [State.decSp, State.setReg_sp_ne s v h, State.setReg_comm s _ _ h.symm, State.decSp]

theorem State.incSp_setReg (s : State) {r : RegIndex} (v : Byte) (h : r ≠ spIndex) :
    (s.setReg r v).incSp = s.incSp.setReg r v := by
  rw [State.incSp, State.setReg_sp_ne s v h, State.setReg_comm s _ _ h.symm, State.incSp]

/-- A push carries a register other than 7 along, where it does not change the pushed value. -/
theorem State.push_setReg (s : State) {r : RegIndex} (v : Byte) (h : r ≠ spIndex) {g g' : State → Byte}
    (hg : g (s.decSp.setReg r v) = g' s.decSp) : (s.setReg r v).push g = (s.push g').setReg r v := by
  rw [State.push, State.decSp_setReg s v h, hg, State.setReg_sp_ne s.decSp v h]
  rfl

/-! ## The shapes of meanings, run from a state that differs in what they do not look at -/

section Carry

variable {h : State → State} {s u : State}

/-- The same fault is taken on both sides. -/
theorem CarriedBy.faults (hk : CarriedBy h s u) {i : Instr} {f : Fault} (hs : Faults i s f) (hu : Faults i u f) :
    exec i u = mapNext h (exec i s) := by
  rw [hs, hu]
  exact congrArg Host.Outcome.next (hk.takeFault f)

/-- Both sides complete, and the difference is carried along. -/
theorem CarriedBy.nexts {i : Instr} {t t' : State} (hs : exec i s = .next t) (hu : exec i u = .next t')
    (ht : t' = h t) : exec i u = mapNext h (exec i s) := by
  rw [hs, hu, ht]
  rfl

theorem RunsRegPair.carry {mk : Byte → Byte → Instr} {effect : State → RegIndex → RegIndex → Byte → State}
    (hrun : RunsRegPair mk effect) (hk : CarriedBy h s u) {a b : Byte}
    (he : ∀ ra rb p, a = ra.byte → b = rb.byte → effect u ra rb p = h (effect s ra rb p)) :
    exec (mk a b) u = mapNext h (exec (mk a b) s) := by
  have hpc := hk.pc
  rcases Nat.lt_or_ge 7 a.toNat with h7 | h7
  · exact hk.faults (hrun.faults_first s a b h7) (hrun.faults_first u a b h7)
  obtain ⟨ra, rfl⟩ := exists_index h7
  rcases Nat.lt_or_ge 7 b.toNat with h7 | h7
  · exact hk.faults (hrun.faults_second s ra b h7) (hrun.faults_second u ra b h7)
  obtain ⟨rb, rfl⟩ := exists_index h7
  rcases Nat.lt_or_ge 255 (s.pc.toNat + 3) with hp | hp
  · have hu := hrun.faults_advance u ra rb (by rwa [hpc])
    rw [hpc] at hu
    exact hk.faults (hrun.faults_advance s ra rb hp) hu
  · exact CarriedBy.nexts (hrun.completes s ra rb hp) (hrun.completes u ra rb (by rwa [hpc]))
      (by rw [hpc, he ra rb _ rfl rfl])

theorem RunsRegThenAdvance.carry {n : Nat} {mk : Byte → Instr} {effect : State → RegIndex → Byte → State}
    (hrun : RunsRegThenAdvance n mk effect) (hn : n ≤ 2) (hk : CarriedBy h s u) {a : Byte}
    (he : ∀ ra p, a = ra.byte → effect u ra p = h (effect s ra p)) :
    exec (mk a) u = mapNext h (exec (mk a) s) := by
  have hpc := hk.pc
  rcases Nat.lt_or_ge 7 a.toNat with h7 | h7
  · exact hk.faults (hrun.faults_index s a h7) (hrun.faults_index u a h7)
  obtain ⟨ra, rfl⟩ := exists_index h7
  rcases Nat.lt_or_ge 255 (s.pc.toNat + (1 + n)) with hp | hp
  · have hu := hrun.faults_advance hn u ra (by rwa [hpc])
    rw [hpc] at hu
    exact hk.faults (hrun.faults_advance hn s ra hp) hu
  · exact CarriedBy.nexts (hrun.completes hn s ra hp) (hrun.completes hn u ra (by rwa [hpc]))
      (by rw [hpc, he ra _ rfl])

/-- A branch reads its register where it is taken and sets `pc`; a difference apart from these is carried along. -/
theorem RunsBranch.carry {mk : Byte → Instr} {taken : Flags → Bool} (hrun : RunsBranch mk taken)
    (hk : CarriedBy h s u) (hfl : u.fl = s.fl) {a : Byte}
    (hreg : ∀ ra, taken s.fl = true → a = ra.byte → u.reg ra = s.reg ra) (hset : ∀ p, u.setPc p = h (s.setPc p)) :
    exec (mk a) u = mapNext h (exec (mk a) s) := by
  have hpc := hk.pc
  cases ht : taken s.fl with
  | true =>
    rcases Nat.lt_or_ge 7 a.toNat with h7 | h7
    · exact hk.faults (hrun.faults_index ht h7) (hrun.faults_index (by rwa [hfl]) h7)
    obtain ⟨ra, rfl⟩ := exists_index h7
    exact CarriedBy.nexts (hrun.jumps ht) (hrun.jumps (by rwa [hfl])) (by rw [hreg ra ht rfl, hset])
  | false =>
    rcases Nat.lt_or_ge 255 (s.pc.toNat + 2) with hp | hp
    · have hu := hrun.faults_advance (s := u) (a := a) (by rwa [hfl]) (by rwa [hpc])
      rw [hpc] at hu
      exact hk.faults (hrun.faults_advance ht hp) hu
    · exact CarriedBy.nexts (hrun.advances ht hp) (hrun.advances (by rwa [hfl]) (by rwa [hpc])) (by rw [hpc, hset])

end Carry

/-- An instruction carries along a register that it neither writes nor reads (R13). -/
theorem exec_setReg {i : Instr} {s : State} {r : RegIndex} (v : Byte) (hw : ¬ WritesReg i r)
    (hr : ¬ ReadsReg i s.fl r) : exec i (s.setReg r v) = mapNext (fun t => t.setReg r v) (exec i s) := by
  have hk : CarriedBy (fun t => t.setReg r v) s (s.setReg r v) := ⟨rfl, fun _ => rfl⟩
  have hne : ∀ {a : Byte} {q : RegIndex}, ¬ r.byte = a → a = q.byte → q ≠ r := fun h e e' => h (e' ▸ e.symm)
  have hread : ∀ {a : Byte} {q : RegIndex}, ¬ r.byte = a → a = q.byte → (s.setReg r v).reg q = s.reg q :=
    fun h e => State.setReg_reg_ne s v (hne h e)
  cases i <;> simp only [WritesReg, not_or] at hw <;> simp only [ReadsReg, not_or, not_and] at hr
  case add =>
    refine runsRegPair_add.carry hk fun ra rb p ha hb => ?_
    simp only [hread hr.1 ha, hread hr.2 hb, State.setReg_comm s _ _ (hne hr.1 ha)]
    rfl
  case mul =>
    refine runsRegPair_mul.carry hk fun ra rb p ha hb => ?_
    simp only [hread hr.1 ha, hread hr.2 hb, State.setReg_comm s _ _ (hne hr.1 ha)]
    rfl
  case cmp =>
    refine runsRegPair_cmp.carry hk fun ra rb p ha hb => ?_
    simp only [hread hr.1 ha, hread hr.2 hb]
    rfl
  case halt => rfl
  case ldi a imm =>
    refine (runsRegThenAdvance_ldi imm).carry (by decide) hk fun ra p ha => ?_
    simp only [State.setReg_comm s _ _ (hne hw ha)]
    rfl
  case prn =>
    refine runsRegThenAdvance_prn.carry (by decide) hk fun ra p ha => ?_
    simp only [hread hr ha]
    rfl
  case push =>
    refine runsRegThenAdvance_push.carry (by decide) hk fun ra p ha => ?_
    exact congrArg (State.setPc · p) (State.push_setReg s v hw (State.setReg_reg_ne s.decSp v (hne hr.2 ha)))
  case pop =>
    refine runsRegThenAdvance_pop.carry (by decide) hk fun ra p ha => ?_
    simp only [State.setReg_sp_ne s v hw.2, State.setReg_read, State.setReg_comm s _ _ (hne hw.1 ha),
      State.incSp_setReg _ v hw.2]
    rfl
  case call =>
    refine runsRegThenAdvance_call.carry (by decide) hk fun ra p ha => ?_
    have htarget : (s.setReg r v).decSp.reg ra = s.decSp.reg ra := by
      rw [State.decSp_setReg s v hw, State.setReg_reg_ne s.decSp v (hne hr.2 ha)]
    have hpush : (s.setReg r v).push (fun _ => p) = (s.push fun _ => p).setReg r v := State.push_setReg s v hw rfl
    simp only [htarget, hpush]
    rfl
  case ret =>
    refine CarriedBy.nexts (i := .ret) rfl rfl ?_
    rw [State.setReg_sp_ne s v hw, State.setReg_read]
    exact State.incSp_setReg (s.setPc (s.read s.sp)) v hw
  case jmp => exact runsBranch_jmp.carry hk rfl (fun ra _ ha => hread hr ha) fun _ => rfl
  case jeq => exact runsBranch_jeq.carry hk rfl (fun ra ht ha => hread (hr ht) ha) fun _ => rfl
  case jne =>
    exact runsBranch_jne.carry hk rfl (fun ra ht ha => hread (hr (takenJne_eq_true_iff.mp ht)) ha) fun _ => rfl

/-! ## Overwriting a register that is written and not read -/

/-- Written and not read is the destination of `LDI`, and that of `POP` where it is not the stack pointer (R13). -/
theorem writes_not_reads_cases {i : Instr} {fl : Flags} {r : RegIndex} (hw : WritesReg i r) (hr : ¬ ReadsReg i fl r) :
    (∃ imm, i = .ldi r.byte imm) ∨ (i = .pop r.byte ∧ r ≠ spIndex) := by
  cases i <;> simp only [WritesReg] at hw <;> simp only [ReadsReg, not_or] at hr
  case add | mul => exact absurd hw hr.1
  case push | call => exact absurd hw hr.1
  case ret => exact absurd hw hr
  case ldi a imm => exact .inl ⟨imm, by rw [hw]⟩
  case pop a =>
    obtain rfl | hsp := hw
    · exact .inr ⟨rfl, hr⟩
    · exact absurd hsp hr

/-- Where the effect overwrites the destination, what the destination held makes no difference to the completion nor
to the fault. -/
theorem RunsRegThenAdvance.overwrites {n : Nat} {mk : Byte → Instr} {effect : State → RegIndex → Byte → State}
    (h : RunsRegThenAdvance n mk effect) (hn : n ≤ 2) (s : State) (r : RegIndex) (v : Byte)
    (he : ∀ p, effect (s.setReg r v) r p = effect s r p ∧ (effect s r p).pc = p) :
    (∃ f, Faults (mk r.byte) s f ∧ Faults (mk r.byte) (s.setReg r v) f) ∨
    (∃ t, t.pc ≠ s.pc ∧ exec (mk r.byte) s = .next t ∧ exec (mk r.byte) (s.setReg r v) = .next t) := by
  rcases Nat.lt_or_ge 255 (s.pc.toNat + (1 + n)) with hp | hp
  · exact .inl ⟨_, h.faults_advance hn s r hp, h.faults_advance hn (s.setReg r v) r hp⟩
  · refine .inr ⟨_, ?_, h.completes hn s r hp, ?_⟩
    · have hnext := pcNext_toNat hp
      rw [(he _).2]
      intro hpc
      rw [hpc] at hnext
      omega
    · rw [h.completes hn (s.setReg r v) r hp]
      exact congrArg Host.Outcome.next (he _).1

/-- A register that an instruction writes and does not read makes no difference to it (R13). -/
theorem exec_setReg_overwritten {i : Instr} {s : State} {r : RegIndex} (v : Byte) (hw : WritesReg i r)
    (hr : ¬ ReadsReg i s.fl r) :
    (∃ f, Faults i s f ∧ Faults i (s.setReg r v) f) ∨
    (∃ t, t.pc ≠ s.pc ∧ exec i s = .next t ∧ exec i (s.setReg r v) = .next t) := by
  obtain ⟨imm, rfl⟩ | ⟨rfl, hsp⟩ := writes_not_reads_cases hw hr
  · refine (runsRegThenAdvance_ldi imm).overwrites (by decide) s r v fun p => ⟨?_, rfl⟩
    simp only [State.setReg_setReg]
  · refine runsRegThenAdvance_pop.overwrites (by decide) s r v fun p => ⟨?_, rfl⟩
    simp only [State.setReg_sp_ne s v hsp, State.setReg_read, State.setReg_setReg]

/-- Taking a fault keeps its cause alone. -/
theorem takeFault_congr {f g : Fault} {s : State} (h : takeFault f s = takeFault g s) (u : State) :
    takeFault f u = takeFault g u := by
  have hcause : f.cause = g.cause := congrArg State.cause h
  simp only [takeFault, hcause]

/-- Settles O35: the writes by what a completed instruction leaves alone, the unused registers by the commuting of
`exec` with `setReg`, and the written and not read ones by overwriting. -/
theorem instructionsUseOnlyTheirRegisters : Obligations.InstructionsUseOnlyTheirRegisters := by
  refine ⟨fun i s t r h hw => ?unwritten, fun i s r v hw hr => exec_setReg v hw hr,
    fun i s t r v hw hr h hno => ?completes, fun i s r v f hw hr hf => ?faults⟩
  case unwritten =>
    rcases exec_next h with ⟨f, rfl⟩ | hc
    · rfl
    · exact hc.reg_eq hw
  case completes =>
    obtain ⟨f, hs, -⟩ | ⟨u, -, hs, hu⟩ := exec_setReg_overwritten v hw hr
    · exact absurd (Host.Outcome.next.inj (h.symm.trans hs)) (hno f)
    · rw [hu, ← hs, h]
  case faults =>
    obtain ⟨g, hs, hu⟩ | ⟨u, hpc, hs, -⟩ := exec_setReg_overwritten v hw hr
    · have hsame : takeFault g s = takeFault f s := Host.Outcome.next.inj (hs.symm.trans hf)
      rw [Faults, hu, takeFault_congr hsame]
    · have hsame : u = takeFault f s := Host.Outcome.next.inj (hs.symm.trans hf)
      exact absurd (congrArg State.pc hsame) hpc

end Sys2Proof.Machine


/-! SUPPORT. The statements that tables and single definitions settle: the first-byte map, the sample words, `HALT`,
taking a fault, reset, and the host's exit code. -/

namespace Sys2Proof.Machine

/-! ## The default opcode map -/

/-- Settles O1: each word is decoded under the default identifiers. -/
theorem sampleWordsDecode : Obligations.SampleWordsDecode := by
  refine ⟨?_, ?_, ?_, ?_, ?_, ?_, ?_⟩ <;> decide

/-- A count over the numbers below `m * n`, taken in `m` rows of `n`. -/
theorem countP_range_mul (p : Nat → Bool) (m n : Nat) :
    (List.range (m * n)).countP p =
      ((List.range m).map fun i => (List.range n).countP fun k => p (n * i + k)).sum := by
  induction m with
  | zero => simp
  | succ m ih =>
    rw [Nat.succ_mul, List.range_add, List.countP_append, ih, List.range_succ, List.map_append, List.sum_append,
      List.countP_map, Nat.mul_comm]
    simp [Function.comp_def]

/-- Settles O2: the 256 bytes against the table, and the four counts taken row by row. -/
theorem firstByteMapIsTheTable : Obligations.FirstByteMapIsTheTable := by
  refine ⟨by decide, ?_, ?_, ?_, ?_⟩
  all_goals exact (countP_range_mul _ 16 16).trans (by decide)

/-! ## `HALT`, faults, reset and the exit code -/

/-- Settles O21: the shared fetch, and the meaning of `HALT`, which checks nothing and writes `RUN` alone. -/
theorem haltRule : Obligations.HaltRule :=
  ⟨runsAs_build .halt, fun s => ⟨s.halt, rfl, rfl, rfl, rfl, rfl, rfl, s.halt_reg, s.halt_read⟩⟩

/-- Settles O17: the entry writes `RUN` and the fault's cause. -/
theorem takingAFaultWritesRunAndCauseOnly : Obligations.TakingAFaultWritesRunAndCauseOnly :=
  ⟨fun f s => ⟨rfl, rfl, rfl, rfl, takeFault_reg f s, takeFault_read f s⟩, fun _ _ _ => ⟨rfl, rfl, rfl, rfl, rfl⟩⟩

/-- Settles O37: the reset values, over the memory as it was. -/
theorem resetOfAnyStateKeepsMemoryOnly : Obligations.ResetOfAnyStateKeepsMemoryOnly :=
  fun s => ⟨read_congr s.applyReset_mem, reset_reg, rfl, ⟨rfl, rfl, rfl⟩, rfl, rfl, rfl⟩

/-- Settles O52: the exit code is read off `RUN`, and off `CAUSE` once the machine is halted. -/
theorem exitCodeSaysHowTheRunEnded : Obligations.ExitCodeSaysHowTheRunEnded := by
  refine fun s => ⟨fun hrun => ?running, fun ⟨hrun, hcause⟩ => ?normal, fun ⟨hrun, hcause⟩ => ?fatal⟩
  case running => simp only [hostExitCode, hrun]
  case normal => simp only [hostExitCode, hrun, hcause]
  case fatal =>
    cases h : s.cause with
    | none => exact absurd h hcause
    | unsupportedAluOp | unknownOpcode | illegalArity | memRangeFault | regRangeFault =>
      simp only [hostExitCode, hrun, h]

end Sys2Proof.Machine
